-- ==== Sys2Proof/Word.lean ====
section
/-! DEFINITION. The word types: the 8-bit byte (ACC, POLY, `data`, `crc_out`), the 10-bit command word and the 16-bit value of a frame. -/
namespace Sys2Proof

/-- A byte: ACC, POLY, `cmd[7:0]`, `crc_out` (spec/00_scope.md R6, R9: 8 bits, unsigned, bit 7 the high bit). -/
abbrev Byte := BitVec 8

/-- A command word `cmd[9:0]` (spec/30_encoding.md R62). -/
abbrev CmdWord := BitVec 10

/-- A 16-bit value of a frame; the block itself never sees one (spec/20_memory.md R44). -/
abbrev Half := BitVec 16

end Sys2Proof
end

