-- ==== Sys2Proof/Config.lean ====
section
/-! DEFINITION. What is fixed when a block is built, the parameters of spec/00_scope.md R6, and the constants the
spec leaves open (opaque: no value can be evaluated or proved). -/
namespace Sys2Proof

/-- What is fixed when one block is built: the polynomial constant, and nothing else (spec/10_state.md R26).
Several blocks may differ in it (spec/60_exceptions.md R139). -/
structure BlockConfig where
  /-- POLY: the low eight coefficients, XORed in after a shift whose outgoing bit was 1 (spec/00_scope.md R7). -/
  poly : Byte
  deriving DecidableEq, Repr

/-- INIT_VALUE of spec/00_scope.md R6. -/
def Config.initValue : Byte := 0x00#8

/-- SHIFTS_PER_BYTE of spec/00_scope.md R6. -/
def Config.shiftsPerByte : Nat := 8

/-- POLY of the block that `State.reset` describes: OPEN, any 8-bit value (spec/00_scope.md R7; spec/92_eei_decisions.md D2).
Log entry 1. -/
opaque Config.poly : Byte

/-- The 17 registers of the fuel gauge that have accessors (spec/41_host_frames.md R120). -/
inductive DeviceRegister where
  | beforeRsoc | thermistorB | initialRsoc | cellTemperature | cellVoltage | currentDirection
  | packApplicationAdjustment | packThermistorAdjustment | rsoc | indicatorToEmpty | icVersion
  | parameterSelection | lowRsocAlarm | lowVoltageAlarm | icPowerMode | statusBit | parameterIdentity
  deriving DecidableEq, Repr

/-- The command (register-select) byte of a register: fixed, but no value is given (spec/41_host_frames.md R113, R120;
spec/91_not_in_source.md N2). Log entry 9. -/
opaque Config.commandByte : DeviceRegister → Byte

/-- The default payload (low, high) of a register other than before-RSOC: not given (spec/91_not_in_source.md N7).
Log entry 9. -/
opaque Config.openPayload : DeviceRegister → Byte × Byte

/-- Picks a register's settle delay within the bounds the spec gives (spec/91_not_in_source.md N8). Log entry 9. -/
opaque Config.openSettle : DeviceRegister → Nat

/-- Picks where, between 1 ms and 10 ms, the delays of simple reads end and those of calibration operations begin
(spec/41_host_frames.md R117 gives the order and no value). Log entry 9. -/
opaque Config.openSettleSplit : Nat

/-- The 7-bit bus address of the gauge: fixed, no value given (spec/41_host_frames.md R119; spec/91_not_in_source.md N11).
Log entry 9. -/
opaque Config.deviceAddress : BitVec 7

end Sys2Proof
end

