-- ==== Sys2Proof/Machine/Crc.lean ====
section
/-! DEFINITION. The pure functions of spec/40_crc_commands.md: bit-step, byte update, CRC-8, and the other forms of them
the rules allow. Every one takes POLY as an argument. -/
namespace Sys2Proof.Machine

/-- One bit-step (R80): the high bit is read before the shift; POLY is applied only when it was 1. -/
def bitstep (poly a : Byte) : Byte :=
  if a.getLsbD 7 then (a <<< 1) ^^^ poly else a <<< 1

/-- `n` bit-steps, one after another. -/
def bitsteps (poly : Byte) : Nat → Byte → Byte
  | 0, v => v
  | n + 1, v => bitsteps poly n (bitstep poly v)

/-- `T(v) = bitstep^8(v)` (R94). -/
def byteT (poly v : Byte) : Byte := bitsteps poly Config.shiftsPerByte v

/-- The byte update `upd(a, d)` (R81): the byte is XORed in whole, once, before the eight bit-steps. -/
def upd (poly a d : Byte) : Byte := byteT poly (a ^^^ d)

/-- The UPDATEs of a list of bytes from the accumulator `a` (R96). -/
def updAll (poly a : Byte) (xs : List Byte) : Byte := xs.foldl (upd poly) a

/-- `CRC8(X)` (R82): from the initial value, no final XOR. -/
def crc8 (poly : Byte) (xs : List Byte) : Byte := updAll poly Config.initValue xs

/-- The bytewise XOR of two sequences of equal length (R89). -/
def xorBytes (xs ys : List Byte) : List Byte := List.zipWith (· ^^^ ·) xs ys

/-! ### The bit-serial form (R86) -/

/-- The bits of a byte in the order they enter the feedback, `d[7]` first (spec/20_memory.md R42; R86). -/
def msbFirst (d : Byte) : List Bool :=
  [d.getLsbD 7, d.getLsbD 6, d.getLsbD 5, d.getLsbD 4, d.getLsbD 3, d.getLsbD 2, d.getLsbD 1, d.getLsbD 0]

/-- One step of the bit-serial form, with the input bit `b` (R86). -/
def serialBit (poly v : Byte) (b : Bool) : Byte :=
  if v.getLsbD 7 ^^ b then (v <<< 1) ^^^ poly else v <<< 1

/-- The bit-serial UPDATE (R86). -/
def updSerial (poly a d : Byte) : Byte := (msbFirst d).foldl (serialBit poly) a

/-! ### The table-driven form (R94) -/

/-- `T` as a table of 256 bytes (R94). -/
def byteTable (poly : Byte) : Vector Byte (2 ^ 8) := Vector.ofFn fun i => byteT poly (BitVec.ofFin i)

/-- UPDATE by one look-up in a precomputed table (R94). -/
def updTable (table : Vector Byte (2 ^ 8)) (a d : Byte) : Byte := table.get (a ^^^ d).toFin

/-! ### A wider accumulator that is never masked (R95) -/

/-- A bit-step on a register of `n` bits: bit 7 is tested, POLY goes into the low byte, nothing is masked (R95). -/
def wideStep {n : Nat} (poly : Byte) (v : BitVec n) : BitVec n :=
  if v.getLsbD 7 then (v <<< 1) ^^^ poly.setWidth n else v <<< 1

/-- `k` such bit-steps. -/
def wideSteps {n : Nat} (poly : Byte) : Nat → BitVec n → BitVec n
  | 0, v => v
  | k + 1, v => wideSteps poly k (wideStep poly v)

/-- UPDATE on a register of `n` bits (R95). -/
def wideUpd {n : Nat} (poly : Byte) (v : BitVec n) (d : Byte) : BitVec n :=
  wideSteps poly Config.shiftsPerByte (v ^^^ d.setWidth n)

/-- A bit-step on an accumulator without bound (R95; spec/95_test_vectors.md V8 row 5). -/
def unboundedStep (poly : Byte) (v : Nat) : Nat :=
  if v.testBit 7 then (v <<< 1) ^^^ poly.toNat else v <<< 1

/-- `k` such bit-steps. -/
def unboundedSteps (poly : Byte) : Nat → Nat → Nat
  | 0, v => v
  | k + 1, v => unboundedSteps poly k (unboundedStep poly v)

/-- UPDATE on an accumulator without bound (R95). -/
def unboundedUpd (poly : Byte) (v : Nat) (d : Byte) : Nat :=
  unboundedSteps poly Config.shiftsPerByte (v ^^^ d.toNat)

end Sys2Proof.Machine
end

