-- ==== Sys2Proof/Syntax.lean ====
section
/-! DEFINITION. The commands (one constructor per row of spec/opcode_table.json) and the assembler's source lines. -/
namespace Sys2Proof

/-- A command. `data` is `cmd[7:0]`: NOP and INIT ignore it, and it is kept so that every one of the 1024 command
words is a command of its own (spec/30_encoding.md R63, R64). -/
inductive Instr where
  /-- NOP (spec/40_crc_commands.md R83). -/
  | nop (data : Byte)
  /-- INIT (spec/40_crc_commands.md R84). -/
  | init (data : Byte)
  /-- UPDATE (spec/40_crc_commands.md R85). -/
  | update (d : Byte)
  /-- The reserved code `op = 11` (spec/60_exceptions.md R131). -/
  | illegal (data : Byte)
  deriving DecidableEq, Repr

/-- A source line of the assembler: the four forms of spec/30_encoding.md R66 and the three pseudo-instructions of R67.
Operands are the numbers as written; their ranges are checked by `AsmLine.wellFormed`. -/
inductive AsmLine where
  | nop
  | init
  | update (imm8 : Int)
  | cmd (imm10 : Int)
  | crc8 (bytes : List Int)
  | frameCrc (cmd lo hi : Int)
  | check (bytes : List Int) (c : Int)
  deriving DecidableEq, Repr

end Sys2Proof
end

