-- ==== Sys2Proof/WellFormed.lean ====
section
/-! DEFINITION. The checks on commands and on source lines. -/
namespace Sys2Proof

/-- `<imm8>`: 0..255 (spec/30_encoding.md R66). -/
def imm8InRange (n : Int) : Bool := decide (0 ≤ n) && decide (n ≤ 255)

/-- `<imm10>`: 0..1023 (spec/30_encoding.md R66). -/
def imm10InRange (n : Int) : Bool := decide (0 ≤ n) && decide (n ≤ 1023)

/-- Every command is well formed: its one operand is eight bits wide by type, and each value of it is a command word
(spec/30_encoding.md R63: the four rows cover all 1024 words). -/
def Instr.wellFormed : Instr → Bool
  | .nop _ => true
  | .init _ => true
  | .update _ => true
  | .illegal _ => true

/-- The word is the one the assembler writes for a mnemonic: NOP and INIT with `data = 0x00`, every UPDATE, no reserved
word (spec/30_encoding.md R64, R66). -/
def Instr.canonical : Instr → Bool
  | .nop data => data == 0x00#8
  | .init data => data == 0x00#8
  | .update _ => true
  | .illegal _ => false

/-- Every operand of a source line is in its range; out of range is an assembly error (spec/30_encoding.md R66). -/
def AsmLine.wellFormed : AsmLine → Bool
  | .nop => true
  | .init => true
  | .update n => imm8InRange n
  | .cmd n => imm10InRange n
  | .crc8 bs => bs.all imm8InRange
  | .frameCrc c lo hi => imm8InRange c && imm8InRange lo && imm8InRange hi
  | .check bs c => bs.all imm8InRange && imm8InRange c

end Sys2Proof
end

