-- ==== Sys2Proof/Decode.lean ====
section
/-! DEFINITION. From command words to commands and back (spec/30_encoding.md R62 to R65). -/
namespace Sys2Proof

/-- The field `op = cmd[9:8]` (spec/30_encoding.md R62). -/
def opField (w : CmdWord) : BitVec 2 := w.extractLsb' 8 2

/-- The field `data = cmd[7:0]`, used as it stands (spec/30_encoding.md R62, R64). -/
def dataField (w : CmdWord) : Byte := w.extractLsb' 0 8

/-- The decoder, total over the 1024 words (spec/30_encoding.md R63). The last arm is `op = 11`, the reserved code. -/
def decode (w : CmdWord) : Instr :=
  if opField w = 0b00#2 then .nop (dataField w)
  else if opField w = 0b01#2 then .init (dataField w)
  else if opField w = 0b10#2 then .update (dataField w)
  else .illegal (dataField w)

/-- Why a number is no command word. -/
inductive DecodeReject where
  /-- The port `cmd` is ten bits wide (spec/30_encoding.md R60, R62): no such word can be presented. -/
  | widerThanTenBits (w : Nat)
  deriving DecidableEq, Repr

/-- A number as a command word, or a rejection by name where `cmd` cannot carry it. -/
def decodeNat (w : Nat) : Except DecodeReject Instr :=
  if w < 1024 then .ok (decode (BitVec.ofNat 10 w)) else .error (.widerThanTenBits w)

/-- The host's view of the decoder: the low `nbits` of `w`, every bit above them 0. -/
def decodeTableWord (nbits w : Nat) : Option Instr :=
  match decodeNat (w % 2 ^ nbits) with
  | .ok i => some i
  | .error _ => none

/-- The `match` column of spec/30_encoding.md R63. -/
def Instr.matchWord : Instr → CmdWord
  | .nop _ => 0x000#10
  | .init _ => 0x100#10
  | .update _ => 0x200#10
  | .illegal _ => 0x300#10

/-- The `data` field of a command. -/
def Instr.data : Instr → Byte
  | .nop data => data
  | .init data => data
  | .update d => d
  | .illegal data => data

/-- The encoder: the row's `match` with `data` in `cmd[7:0]` (spec/30_encoding.md R62, R63; R66 `0x200 | imm8`). -/
def encode (i : Instr) : CmdWord := i.matchWord ||| i.data.setWidth 10

/-- A row of the opcode map of spec/30_encoding.md R63. -/
structure OpcodeRow where
  mnemonic : String
  matchWord : CmdWord
  mask : CmdWord
  deriving DecidableEq, Repr

/-- The opcode map of spec/30_encoding.md R63 (spec/opcode_table.json's names). -/
def opcodeMap : List OpcodeRow :=
  [⟨"NOP", 0x000#10, 0x300#10⟩, ⟨"INIT", 0x100#10, 0x300#10⟩,
   ⟨"UPDATE", 0x200#10, 0x300#10⟩, ⟨"ILLEGAL", 0x300#10, 0x300#10⟩]

/-- The row takes in the word. -/
def OpcodeRow.takes (r : OpcodeRow) (w : CmdWord) : Bool := w &&& r.mask == r.matchWord

/-- A command's mnemonic in the opcode map. -/
def Instr.mnemonic : Instr → String
  | .nop _ => "NOP"
  | .init _ => "INIT"
  | .update _ => "UPDATE"
  | .illegal _ => "ILLEGAL"

end Sys2Proof
end

