-- ==== Sys2Proof/Machine/State.lean ====
section
/-! DEFINITION. The state of one block, the wires that reach it, and the state after reset. -/
namespace Sys2Proof.Machine

/-- The block's exceptions (spec/60_exceptions.md R132). A `Fault` is RECORDED in `State.faults`; no step of this model
ENDS in one, because the hardware consumes the word and moves on (R131). Safe: a run that records one proves nothing
under the premise "no fault recorded" (spec/10_state.md R28), and what the hardware does next is modelled. -/
inductive Fault where
  /-- IllegalCommand, cause code 1: recorded by every command word with `op = 11`, with that word (R131). Safe. -/
  | illegalCommand (word : CmdWord)
  deriving DecidableEq, Repr

/-- Why a step can be refused. No arm of `exec` refuses: all four rows of the opcode table have their meaning. -/
inductive Refusal where
  /-- An instruction without a meaning, by its mnemonic. Raised by nothing in this model. Safe. -/
  | notModelled (mnemonic : String)
  deriving DecidableEq, Repr

/-- The levels of the block's input wires, and of `cmd_ready`, at one event (spec/30_encoding.md R60). `cmdReady` is an
output of the block whose timing is OPEN (R61; UPDATE_LATENCY of spec/00_scope.md R6), so its level stands in the event
and takes any value: log entry 3. -/
structure PortEvent where
  rst : Bool
  cmdValid : Bool
  cmdReady : Bool
  cmd : CmdWord
  deriving DecidableEq, Repr

/-- One block (spec/10_state.md R29), with its build parameter and the events that will reach its ports. -/
structure State where
  /-- The build parameter POLY. Outside the state in the spec (R26, R29): no step writes it. Log entry 1. -/
  cfg : BlockConfig
  /-- ACC, the one architectural register (R21). -/
  acc : Byte
  /-- The model's fault mark (R28). -/
  faulted : Bool
  /-- The recorded faults, oldest first (spec/60_exceptions.md R131, R132). Log entry 4. -/
  faults : List Fault
  /-- The model's own field: the port events to come, oldest first (R24: in the order they are presented). Log entry 2. -/
  inputs : List PortEvent
  deriving DecidableEq, Repr

/-- The state a launch of a block with build parameter `cfg` starts in (spec/70_reset_and_hazards.md R150, R151): nothing has
been presented yet. -/
def State.launch (cfg : BlockConfig) : State :=
  { cfg := cfg, acc := 0x00#8, faulted := false, faults := [], inputs := [] }

/-- The machine right after reset (spec/70_reset_and_hazards.md R150; spec/10_state.md R29), for the open POLY. -/
def State.reset : State := State.launch { poly := Config.poly }

end Sys2Proof.Machine
end

