-- ==== Sys2Proof/Machine/Ops.lean ====
section
/-! DEFINITION. The named operations over the state: writing ACC, recording an exception, the reset wire, and taking the
next event from the ports. -/
namespace Sys2Proof.Machine

/-- `ACC <- v` (spec/00_scope.md R11). -/
def State.setAcc (s : State) (v : Byte) : State := { s with acc := v }

/-- `raise Fault(IllegalCommand(code = 1, word = cmd))` (spec/60_exceptions.md R131): the mark is set, the word recorded,
ACC unchanged. There is no saved state, no vector, and no return from it (R135). -/
def State.raiseIllegal (s : State) (word : CmdWord) : State :=
  { s with faulted := true, faults := s.faults ++ [.illegalCommand word] }

/-- `rst = 1` (spec/70_reset_and_hazards.md R150): ACC and the fault mark, with its record (DEDUCED, log entry 4); POLY is
not affected. -/
def State.applyReset (s : State) : State := { s with acc := 0x00#8, faulted := false, faults := [] }

/-- The events still to come, after some are taken or presented. -/
def State.withInputs (s : State) (es : List PortEvent) : State := { s with inputs := es }

/-- The port `crc_out` (spec/10_state.md R23). -/
def State.crcOut (s : State) : Byte := s.acc

/-- A host's read of `crc_out`: the value, and the state after the read (spec/10_state.md R23; spec/20_memory.md R47). -/
def State.readCrcOut (s : State) : Byte × State := (s.crcOut, s)

/-- A command is accepted where `cmd_valid` and `cmd_ready` are both 1 (spec/30_encoding.md R60), and none is during reset
(spec/70_reset_and_hazards.md R150). -/
def PortEvent.accepted (e : PortEvent) : Bool := !e.rst && e.cmdValid && e.cmdReady

/-- What the ports bring at the next event. -/
inductive PortResult where
  /-- Nothing is left to come: no command, no reset. -/
  | quiet
  /-- `rst = 1`; the state has moved past the event. -/
  | reset (s : State)
  /-- No command is presented, or one while `cmd_ready` is 0: it has no effect (spec/30_encoding.md R60). -/
  | notAccepted (s : State)
  /-- A command word is accepted. -/
  | accepted (word : CmdWord) (s : State)

/-- Take the next event from the ports: the block's counterpart of a fetch (spec/10_state.md R24: one at a time, in the
order presented). -/
def State.takeEvent (s : State) : PortResult :=
  match s.inputs with
  | [] => .quiet
  | e :: rest =>
    if e.rst then .reset (s.withInputs rest)
    else if e.accepted then .accepted e.cmd (s.withInputs rest)
    else .notAccepted (s.withInputs rest)

/-- A host presents a word and the block is ready: the event at which it is accepted. -/
def PortEvent.present (w : CmdWord) : PortEvent := { rst := false, cmdValid := true, cmdReady := true, cmd := w }

/-- A host presents a word while `cmd_ready` is 0. -/
def PortEvent.waiting (w : CmdWord) : PortEvent := { rst := false, cmdValid := true, cmdReady := false, cmd := w }

/-- Reset, with whatever the other wires show. -/
def PortEvent.resetWith (valid ready : Bool) (w : CmdWord) : PortEvent :=
  { rst := true, cmdValid := valid, cmdReady := ready, cmd := w }

/-- The number as a word on `cmd`, at the head of what is to come; a number `cmd` cannot carry is not presented. -/
def State.presentNat (s : State) (w : Nat) : State :=
  if w < 1024 then s.withInputs (.present (BitVec.ofNat 10 w) :: s.inputs) else s

end Sys2Proof.Machine
end

