-- ==== Sys2Proof/Machine/Commands.lean ====
section
/-! DEFINITION. The meanings of NOP, INIT and UPDATE (spec/40_crc_commands.md R83 to R85). -/
namespace Sys2Proof.Machine

/-- NOP (R83): `skip`. -/
def execNop (_data : Byte) (s : State) : Host.Outcome State Fault Refusal := .next s

/-- INIT (R84): `ACC <- 0x00`. It does not clear the fault mark. -/
def execInit (_data : Byte) (s : State) : Host.Outcome State Fault Refusal := .next (s.setAcc Config.initValue)

/-- UPDATE (R85): `ACC <- upd(ACC, d)`, for the block's own POLY. -/
def execUpdate (d : Byte) (s : State) : Host.Outcome State Fault Refusal :=
  .next (s.setAcc (upd s.cfg.poly s.acc d))

end Sys2Proof.Machine
end

