-- ==== Sys2Proof/Machine/Reserved.lean ====
section
/-! DEFINITION. The meaning of the reserved code `op = 11` (spec/60_exceptions.md R131). -/
namespace Sys2Proof.Machine

/-- The reserved code (R131): IllegalCommand is recorded with the command word, ACC is unchanged, and the block goes on. -/
def execIllegal (data : Byte) (s : State) : Host.Outcome State Fault Refusal :=
  .next (s.raiseIllegal (encode (.illegal data)))

end Sys2Proof.Machine
end

