-- ==== Sys2Proof/Machine/Dispatch.lean ====
section
/-! DEFINITION. Which meaning each command has: one arm per constructor of `Instr`. -/
namespace Sys2Proof.Machine

def exec (i : Instr) (s : State) : Host.Outcome State Fault Refusal :=
  match i with
  | .nop data => Sys2Proof.Machine.execNop data s
  | .init data => Sys2Proof.Machine.execInit data s
  | .update d => Sys2Proof.Machine.execUpdate d s
  | .illegal data => Sys2Proof.Machine.execIllegal data s

end Sys2Proof.Machine
end

