-- ==== Sys2Proof/Machine/Step.lean ====
section
/-! DEFINITION. One step: one event on the ports. -/
namespace Sys2Proof.Machine

/-- One event on the ports. With nothing to come the block takes no step of its own (spec/10_state.md R20); `rst` resets
(spec/70_reset_and_hazards.md R150); a word that is not accepted has no effect; an accepted one is executed whole
(spec/30_encoding.md R60; spec/20_memory.md R46). -/
def step (s : State) : Host.Outcome State Fault Refusal :=
  match s.takeEvent with
  | .quiet => .next s
  | .reset s' => .next s'.applyReset
  | .notAccepted s' => .next s'
  | .accepted w s' => exec (decode w) s'

/-- `s` with the word presented to a ready block as its next event, so that the very next step runs it. Log entry 5 says
how a program comes to run. -/
def State.withFetchWord (s : State) (nbits w : Nat) : State := s.presentNat (w % 2 ^ nbits)

end Sys2Proof.Machine
end

