-- ==== Sys2Proof/Machine/Text.lean ====
section
/-! DEFINITION. Characters and numbers of the assembler's text (spec/30_encoding.md R66) and of the identity string
(spec/00_scope.md R2). Text is a list of characters. -/
namespace Sys2Proof.Machine

/-- A hex digit below 16: ten decimal digits from code point 48 on, then upper case letters from code point 65 on, as
spec/95_test_vectors.md V9 writes them (log entry 6). -/
def hexChar (n : Nat) : Char := Char.ofNat (if n < 10 then 48 + n else 55 + n)

/-- The low `k` hex digits of a number, highest first. -/
def hexDigits : Nat → Nat → List Char
  | 0, _ => []
  | k + 1, n => hexChar (n / 16 ^ k % 16) :: hexDigits k n

/-- The number below `base` that a character stands for, where it stands for one: the digit that `hexChar` prints. -/
def digitBelow? (base : Nat) (c : Char) : Option Nat := (List.range base).find? fun n => hexChar n == c

/-- Digits in a base, after the value read so far; none where a character is no digit. -/
def digits? (base : Nat) : Nat → List Char → Option Nat
  | acc, [] => some acc
  | acc, c :: cs => (digitBelow? base c).bind fun d => digits? base (acc * base + d) cs

/-- An unsigned number: `0x` and hex digits, or decimal digits; at least one digit (spec/30_encoding.md R66).
Hex digits are read in either case (log entry 7). -/
def natural? : List Char → Option Nat
  | '0' :: 'x' :: c :: cs => digits? 16 0 ((c :: cs).map Char.toUpper)
  | c :: cs => digits? 10 0 (c :: cs)
  | [] => none

/-- A number as written; a sign is read, so that `-1` is refused for its range (spec/95_test_vectors.md V9). -/
def number? : List Char → Option Int
  | '-' :: cs => (natural? cs).map fun n => -(n : Int)
  | cs => (natural? cs).map fun n => (n : Int)

/-- A piece of a source line. -/
inductive Token where
  | word (cs : List Char)
  | comma
  deriving DecidableEq, Repr

/-- A blank: a space or a tab (log entry 7). -/
def isBlank (c : Char) : Bool := c == ' ' || c == '\t'

/-- Close the word read so far, if any. -/
def closeWord (w : List Char) (rest : List Token) : List Token :=
  match w with
  | [] => rest
  | _ :: _ => .word w :: rest

/-- The tokens of a line, after the characters of the word read so far. -/
def tokensFrom : List Char → List Char → List Token
  | w, [] => closeWord w []
  | w, c :: cs =>
    if isBlank c then closeWord w (tokensFrom [] cs)
    else if c == ',' then closeWord w (.comma :: tokensFrom [] cs)
    else tokensFrom (w ++ [c]) cs

/-- The tokens of a line, less its comment: `;` starts one (spec/30_encoding.md R66). -/
def tokens (line : List Char) : List Token := tokensFrom [] (line.takeWhile (· != ';'))

/-- The block's identity string `CRC8CMD-1/MSB/POLY=<POLY>`, POLY as two hex digits (spec/00_scope.md R2). -/
def identityText (poly : Byte) : List Char :=
  ['C', 'R', 'C', '8', 'C', 'M', 'D', '-', '1', '/', 'M', 'S', 'B', '/', 'P', 'O', 'L', 'Y', '='] ++ hexDigits 2 poly.toNat

end Sys2Proof.Machine
end

