-- ==== Sys2Proof/Machine/Assembler.lean ====
section
/-! DEFINITION. The assembler and the disassembler (spec/30_encoding.md R66, R67). -/
namespace Sys2Proof.Machine

/-- Why a source line is refused. -/
inductive AsmError where
  /-- An operand is out of its range (R66). -/
  | outOfRange
  /-- The first word of the line is no mnemonic of R66 or R67. -/
  | unknownMnemonic
  /-- The operands do not have the mnemonic's form. -/
  | badOperands
  deriving DecidableEq, Repr

/-- A number in 0..255 as a byte. -/
def byteOf (n : Int) : Byte := BitVec.ofInt 8 n

/-- `crc8 b0, ..., bn-1` (R67): INIT, then one UPDATE per byte. -/
def crc8Commands (bs : List Byte) : List Instr := .init 0x00#8 :: bs.map Instr.update

/-- `frame.crc cmd, lo, hi` (R67). -/
def frameCrcCommands (cmd lo hi : Byte) : List Instr := crc8Commands [cmd, lo, hi]

/-- `check b0, ..., bn-1, c` (R67). -/
def checkCommands (bs : List Byte) (c : Byte) : List Instr := crc8Commands (bs ++ [c])

/-- The commands of a source line whose operands are in range (R66, R67). -/
def lineCommands : AsmLine → List Instr
  | .nop => [.nop 0x00#8]
  | .init => [.init 0x00#8]
  | .update n => [.update (byteOf n)]
  | .cmd n => [decode (BitVec.ofInt 10 n)]
  | .crc8 bs => crc8Commands (bs.map byteOf)
  | .frameCrc c lo hi => frameCrcCommands (byteOf c) (byteOf lo) (byteOf hi)
  | .check bs c => checkCommands (bs.map byteOf) (byteOf c)

/-- A source line's command words, or an assembly error where an operand is out of range (R66). -/
def assemble (l : AsmLine) : Except AsmError (List CmdWord) :=
  if l.wellFormed then .ok ((lineCommands l).map encode) else .error .outOfRange

/-- Operands after the first: each a comma and a number. -/
def moreOperands? : List Token → Option (List Int)
  | [] => some []
  | .comma :: .word w :: rest =>
    match number? w, moreOperands? rest with
    | some n, some ns => some (n :: ns)
    | _, _ => none
  | _ => none

/-- The operands of a line: none, or numbers with commas between them. -/
def operands? : List Token → Option (List Int)
  | [] => some []
  | .word w :: rest =>
    match number? w, moreOperands? rest with
    | some n, some ns => some (n :: ns)
    | _, _ => none
  | .comma :: _ => none

/-- The last operand of `check` and those before it. -/
def splitLast : List Int → Option (List Int × Int)
  | [] => none
  | [c] => some ([], c)
  | b :: rest => (splitLast rest).map fun p => (b :: p.1, p.2)

/-- A mnemonic with its operands (R66: lower case; R67). -/
def lineOf (mnemonic : List Char) (ops : List Int) : Except AsmError AsmLine :=
  if mnemonic = ['n', 'o', 'p'] then
    match ops with
    | [] => .ok .nop
    | _ :: _ => .error .badOperands
  else if mnemonic = ['i', 'n', 'i', 't'] then
    match ops with
    | [] => .ok .init
    | _ :: _ => .error .badOperands
  else if mnemonic = ['u', 'p', 'd', 'a', 't', 'e'] then
    match ops with
    | [n] => .ok (.update n)
    | _ => .error .badOperands
  else if mnemonic = ['.', 'c', 'm', 'd'] then
    match ops with
    | [n] => .ok (.cmd n)
    | _ => .error .badOperands
  else if mnemonic = ['c', 'r', 'c', '8'] then .ok (.crc8 ops)
  else if mnemonic = ['f', 'r', 'a', 'm', 'e', '.', 'c', 'r', 'c'] then
    match ops with
    | [c, lo, hi] => .ok (.frameCrc c lo hi)
    | _ => .error .badOperands
  else if mnemonic = ['c', 'h', 'e', 'c', 'k'] then
    match splitLast ops with
    | some (bs, c) => .ok (.check bs c)
    | none => .error .badOperands
  else .error .unknownMnemonic

/-- The text of a line as a source line; a line of blanks or of a comment alone holds none (log entry 7). -/
def parseLine (line : List Char) : Except AsmError (Option AsmLine) :=
  match tokens line with
  | [] => .ok none
  | .comma :: _ => .error .unknownMnemonic
  | .word m :: rest =>
    match operands? rest with
    | none => .error .badOperands
    | some ops => (lineOf m ops).map some

/-- The command words of a line of text. -/
def assembleLine (line : List Char) : Except AsmError (List CmdWord) :=
  match parseLine line with
  | .error e => .error e
  | .ok none => .ok []
  | .ok (some l) => assemble l

/-- The command words of a program, one line after another; the first error refuses it. -/
def assembleProgram : List (List Char) → Except AsmError (List CmdWord)
  | [] => .ok []
  | line :: rest =>
    match assembleLine line, assembleProgram rest with
    | .ok ws, .ok more => .ok (ws ++ more)
    | .error e, _ => .error e
    | .ok _, .error e => .error e

/-- `.cmd 0xNNN` (R66). -/
def cmdText (w : CmdWord) : List Char := ['.', 'c', 'm', 'd', ' ', '0', 'x'] ++ hexDigits 3 w.toNat

/-- The disassembler: the canonical form for a word that has one, `.cmd 0xNNN` for a NOP or INIT word with nonzero
`data` and for every reserved word (R66). -/
def disassemble (w : CmdWord) : List Char :=
  if (decode w).canonical then
    match decode w with
    | .nop _ => ['n', 'o', 'p']
    | .init _ => ['i', 'n', 'i', 't']
    | .update d => ['u', 'p', 'd', 'a', 't', 'e', ' ', '0', 'x'] ++ hexDigits 2 d.toNat
    | .illegal _ => cmdText w
  else cmdText w

end Sys2Proof.Machine
end

