-- ==== Sys2Proof/Machine/BitSerial.lean ====
section
/-! DEFINITION. A bit-serial implementation of the block, clock cycle by clock cycle: the hidden state of spec/10_state.md R27
(partial accumulator, step counter), `cmd_ready` low while an UPDATE runs, and `crc_out` showing the old ACC until it
completes (spec/70_reset_and_hazards.md R154). It is NOT the machine (`State` has no such field, as R27 asks): it is one
block that meets the spec, for the statement that the atomic machine describes it. -/
namespace Sys2Proof.Machine

/-- A block with a bit-serial datapath. -/
structure Serial where
  cfg : BlockConfig
  /-- ACC, as `crc_out` shows it. -/
  acc : Byte
  /-- The accumulator after the bit-steps done so far of the UPDATE in progress (spec/10_state.md R27). -/
  inner : Byte
  /-- The bit-steps still to do, `8 - k` for the counter `k` of spec/10_state.md R27; 0 when no UPDATE is in progress. -/
  left : Nat
  deriving DecidableEq, Repr

/-- The input wires in one cycle, and whether the datapath makes a bit-step in it: any finite latency is admitted
(spec/70_reset_and_hazards.md R156). -/
structure SerialInput where
  rst : Bool
  cmdValid : Bool
  cmd : CmdWord
  shifts : Bool
  deriving DecidableEq, Repr

/-- `cmd_ready = 0` while an UPDATE's bit-steps are in progress (spec/70_reset_and_hazards.md R154). -/
def Serial.cmdReady (c : Serial) : Bool := c.left == 0

/-- `crc_out` (spec/10_state.md R23). -/
def Serial.crcOut (c : Serial) : Byte := c.acc

/-- Accept a command: NOP, INIT and the reserved code are done at once (spec/40_crc_commands.md R83, R84;
spec/60_exceptions.md R131: the hardware discards the word), UPDATE starts its eight bit-steps (R81). -/
def Serial.accept (c : Serial) (i : Instr) : Serial :=
  match i with
  | .nop _ => c
  | .init _ => { c with acc := Config.initValue }
  | .update d => { c with inner := c.acc ^^^ d, left := Config.shiftsPerByte }
  | .illegal _ => c

/-- One bit-step of the UPDATE in progress; after the last one ACC changes, in one step (spec/70_reset_and_hazards.md R154). -/
def Serial.shift (c : Serial) : Serial :=
  match c.left with
  | 0 => c
  | 1 => { c with acc := bitstep c.cfg.poly c.inner, inner := bitstep c.cfg.poly c.inner, left := 0 }
  | n + 2 => { c with inner := bitstep c.cfg.poly c.inner, left := n + 1 }

/-- Reset abandons a command in progress (spec/70_reset_and_hazards.md R150). -/
def Serial.reset (c : Serial) : Serial := { c with acc := 0x00#8, inner := 0x00#8, left := 0 }

/-- One clock cycle. -/
def Serial.cycle (c : Serial) (i : SerialInput) : Serial :=
  if i.rst then c.reset
  else if c.cmdReady then (if i.cmdValid then c.accept (decode i.cmd) else c)
  else if i.shifts then c.shift
  else c

/-- The cycles of a list of inputs, oldest first. -/
def Serial.cycles (c : Serial) (is : List SerialInput) : Serial := is.foldl Serial.cycle c

/-- What the ports show in a cycle: the input wires, and the block's own `cmd_ready`. -/
def Serial.event (c : Serial) (i : SerialInput) : PortEvent :=
  { rst := i.rst, cmdValid := i.cmdValid, cmdReady := c.cmdReady, cmd := i.cmd }

/-- What the ports show over a list of cycles. -/
def Serial.events (c : Serial) : List SerialInput → List PortEvent
  | [] => []
  | i :: is => c.event i :: Serial.events (c.cycle i) is

/-- The ACC that the command in progress, if any, will leave. -/
def Serial.settled (c : Serial) : Byte :=
  if c.cmdReady then c.acc else bitsteps c.cfg.poly c.left c.inner

/-- The atomic machine and the bit-serial block agree: same POLY, and ACC is what the block's command in progress will leave. -/
def Serial.agrees (c : Serial) (s : State) : Bool := s.cfg == c.cfg && s.acc == c.settled

end Sys2Proof.Machine
end

