-- ==== Sys2Proof/Machine/Flags.lean ====
section
/-! DEFINITION. The block has no flags and no condition codes (spec/10_state.md R25). What stands here are the views of the
model's fault mark: the cause code of spec/60_exceptions.md R132. -/
namespace Sys2Proof.Machine

/-- A fault's cause code (R132). -/
def Fault.code : Fault → Nat
  | .illegalCommand _ => 1

/-- The word recorded with a fault (R131, R132). -/
def Fault.word : Fault → CmdWord
  | .illegalCommand w => w

/-- The cause code of a state: 0 where no fault is recorded, else the code of the first recorded (R132; every code is 1). -/
def State.causeCode (s : State) : Nat :=
  match s.faults with
  | [] => 0
  | f :: _ => f.code

end Sys2Proof.Machine
end

