-- ==== Sys2Proof/Machine/Operands.lean ====
section
/-! DEFINITION. Operand forms. The block has one, the byte `cmd[7:0]` of UPDATE, taken as it stands by the decoder
(spec/30_encoding.md R64). The host's frames compose bytes, low byte first (spec/20_memory.md R44). -/
namespace Sys2Proof.Machine

/-- The 16-bit value of two frame bytes, `(high << 8) | low` (spec/20_memory.md R44; spec/41_host_frames.md R114). -/
def composeValue (low high : Byte) : Half := (high.setWidth 16 <<< 8) ||| low.setWidth 16

/-- `value[7:0]` (spec/41_host_frames.md R114). -/
def lowByte (v : Half) : Byte := v.extractLsb' 0 8

/-- `value[15:8]` (spec/41_host_frames.md R114). -/
def highByte (v : Half) : Byte := v.extractLsb' 8 8

end Sys2Proof.Machine
end

