-- ==== Sys2Proof/Machine/Frames.lean ====
section
/-! DEFINITION. The host's use of the block in device frames (spec/41_host_frames.md). These functions describe the driver
software around the block, not operations of the block; the bus is out of scope (spec/00_scope.md R5), and what it does
comes in as data (`Transfer`). -/
namespace Sys2Proof.Machine

/-- The checksum byte of a parameterized frame: the first three bytes only (R110, R112). -/
def frameChecksum (poly cmd low high : Byte) : Byte := crc8 poly [cmd, low, high]

/-- A parameterized (write) frame (R110). -/
def parameterizedFrame (poly cmd low high : Byte) : List Byte := [cmd, low, high, frameChecksum poly cmd low high]

/-- A bare-select (read) frame (R111; spec/90_conflicts.md C1). -/
def bareFrame (cmd : Byte) : List Byte := [cmd]

/-- A register's default payload, (low, high): before-RSOC's is given, the others are open (R113). Log entry 9. -/
def defaultPayload (r : DeviceRegister) : Byte × Byte :=
  if r = .beforeRsoc then (0x55#8, 0xAA#8) else Config.openPayload r

/-- The device address as the transport takes it, pre-shifted (R119). Log entry 9. -/
def transportAddress : Byte := Config.deviceAddress.setWidth 8 <<< 1

/-- A response: three bytes (R114). -/
structure Response where
  valueLow : Byte
  valueHigh : Byte
  checksum : Byte
  deriving DecidableEq, Repr

/-- The 16-bit value of a response (R114). -/
def Response.value (r : Response) : Half := composeValue r.valueLow r.valueHigh

/-- The received checksum matches the one recomputed over the value bytes (R115). -/
def Response.checksumOk (poly : Byte) (r : Response) : Bool := r.checksum == crc8 poly [r.valueLow, r.valueHigh]

/-- The check by residue: the whole response gives 0 (R115; spec/40_crc_commands.md R91). -/
def Response.residueOk (poly : Byte) (r : Response) : Bool :=
  crc8 poly [r.valueLow, r.valueHigh, r.checksum] == 0x00#8

/-- Degrees Celsius of a raw temperature count, `(raw − 2371.5) / 10`; the offset literal is the source's, unaudited (R116). -/
def celsius (raw : Half) : Rat := ((raw.toNat : Rat) - 4743 / 2) / 10

/-- The host-level error kinds (R118); none is raised by the block. `invalidArgument` is "not applicable to the checksum
routine itself", and no function of this model raises it. -/
inductive HostError where
  | transportError
  | checksumMismatch
  | invalidArgument
  deriving DecidableEq, Repr

/-- What the host does with a failed transfer and with a response's checksum byte: its own choices (R115, R118). -/
structure HostPolicy where
  reportsTransport : Bool
  checksResponse : Bool
  deriving DecidableEq, Repr

/-- The original driver: it discards the transport's return values and checks no response (R115, R118). -/
def HostPolicy.original : HostPolicy := { reportsTransport := false, checksResponse := false }

/-- The hardened driver the source recommends (R115, R118). -/
def HostPolicy.hardened : HostPolicy := { reportsTransport := true, checksResponse := true }

/-- What an accessor asks for: a write with its two payload bytes, or a bare select, of one register (R113, R120). -/
inductive Request where
  | write (register : DeviceRegister) (low high : Byte)
  | select (register : DeviceRegister)
  deriving DecidableEq, Repr

/-- The frame of a request, with the register's fixed command byte (R110, R111, R113). -/
def Request.frame (poly : Byte) : Request → List Byte
  | .write r low high => parameterizedFrame poly (Config.commandByte r) low high
  | .select r => bareFrame (Config.commandByte r)

/-- A write with the register's default payload (R113). -/
def Request.default (r : DeviceRegister) : Request := .write r (defaultPayload r).1 (defaultPayload r).2

/-- A calibration register: the two that R120 calls calibration, and the two that the glossary of spec/00_scope.md does (APA,
APT). Log entry 9. -/
def isCalibration (r : DeviceRegister) : Bool :=
  [.beforeRsoc, .initialRsoc, .packApplicationAdjustment, .packThermistorAdjustment].contains r

/-- The longest delay of a simple register read, at least 1 ms and less than 10 ms. Log entry 9. -/
def longestReadMs : Nat := 1 + Config.openSettleSplit % 9

/-- The fixed settle delay of a request, in milliseconds, by its register: 1 to 10, longer for calibration operations than for
simple register reads (R117). Log entry 9. -/
def settleMs : Request → Nat
  | .select r => 1 + Config.openSettle r % longestReadMs
  | .write r _ _ =>
    if isCalibration r then longestReadMs + 1 + Config.openSettle r % (10 - longestReadMs)
    else 1 + Config.openSettle r % 10

/-- What the bus did: whether transmit and receive succeeded, and the three bytes then in the receive buffer (R119; the bus
itself is out of scope). -/
structure Transfer where
  transmitOk : Bool
  receiveOk : Bool
  buffer : Response
  deriving DecidableEq, Repr

/-- The steps of a transaction (R117). -/
inductive TransactionStep where
  | build (frame : List Byte)
  | transmit (address : Byte) (frame : List Byte)
  | settle (ms : Nat)
  | receive (address : Byte) (length : Nat)
  | decode (value : Half)
  deriving DecidableEq, Repr

/-- One transaction: its steps in order, with the settle delay of its register, and its result (R117). A hardened host aborts
at a failed transfer (R118; log entry 10). R117's steps hold no check: that a host that checks the response does so between
receive and decode, and makes no decode step after a mismatch, is the model's choice (DESIGN CHOICE, log entry 10). So is it that
the decode step gives the raw 16-bit value (R114) of every register, cell temperature too: R117 does not say whether decoding
includes R116's transform, and `celsius` is a function beside the transaction (DESIGN CHOICE, log entry 10). -/
def transaction (poly : Byte) (policy : HostPolicy) (req : Request) (bus : Transfer) :
    List TransactionStep × Except HostError Half :=
  let sent := [.build (req.frame poly), .transmit transportAddress (req.frame poly)]
  let received := sent ++ [.settle (settleMs req), .receive transportAddress 3]
  if policy.reportsTransport && !bus.transmitOk then (sent, .error .transportError)
  else if policy.reportsTransport && !bus.receiveOk then (received, .error .transportError)
  else if policy.checksResponse && !bus.buffer.checksumOk poly then (received, .error .checksumMismatch)
  else (received ++ [.decode bus.buffer.value], .ok bus.buffer.value)

end Sys2Proof.Machine
end

