-- ==== Sys2Proof/Machine/Hosts.lean ====
section
/-! DEFINITION. What reaches a block from its hosts: one host's commands, waits, interleavings of two hosts, and several blocks side
by side. -/
namespace Sys2Proof.Machine

/-- The commands presented one after another to a ready block. -/
def presentAll (is : List Instr) : List PortEvent := is.map fun i => .present (encode i)

/-- A host that keeps presenting a word: `waits` events with `cmd_ready` low, then its acceptance (spec/30_encoding.md R60). -/
def holdUntilReady (waits : Nat) (w : CmdWord) : List PortEvent :=
  List.replicate waits (.waiting w) ++ [.present w]

/-- Commands with their waits, each held until it is accepted. -/
def presentHeld : List (Nat × Instr) → List PortEvent
  | [] => []
  | (waits, i) :: rest => holdUntilReady waits (encode i) ++ presentHeld rest

/-- Two hosts' sequences interleaved as a schedule says (`true`: the first host's next); what the schedule leaves over
follows. Every interleaving is one of these (spec/20_memory.md R50). -/
def interleave {α : Type} : List Bool → List α → List α → List α
  | [], xs, ys => xs ++ ys
  | true :: sched, x :: xs, ys => x :: interleave sched xs ys
  | true :: sched, [], ys => interleave sched [] ys
  | false :: sched, xs, y :: ys => y :: interleave sched xs ys
  | false :: sched, xs, [] => interleave sched xs []

/-- The bytes of the UPDATEs among some commands, in order (spec/40_crc_commands.md R97). -/
def updateBytes : List Instr → List Byte
  | [] => []
  | .update d :: rest => d :: updateBytes rest
  | .nop _ :: rest => updateBytes rest
  | .init _ :: rest => updateBytes rest
  | .illegal _ :: rest => updateBytes rest

/-- Several blocks, each with its own ACC, fault mark and POLY; block `k` takes a step, and none can address another
(spec/60_exceptions.md R139). -/
def stepAt (blocks : List State) (k : Nat) : Host.Outcome (List State) Fault Refusal :=
  match blocks[k]? with
  | none => .next blocks
  | some s =>
    match step s with
    | .next s' => .next (blocks.set k s')
    | .fault f => .fault f
    | .refused r => .refused r

end Sys2Proof.Machine
end

