-- ==== Sys2Proof/Safety.lean ====
section
/-! DEFINITION. What claims about runs are stated in: runs, the premises the spec asks for (no fault recorded, INIT first,
exclusive use, the handshake), and the invariant of the fault record. -/
namespace Sys2Proof.Machine

/-- `k` events. -/
def run (k : Nat) (s : State) : Host.Outcome State Fault Refusal := Host.Core.run Sys2Proof.core k s

/-- "No fault recorded", the premise of every claim (spec/10_state.md R28). -/
def State.noFault (s : State) : Bool := !s.faulted

/-- The mark and the record agree, and only reserved words are recorded (spec/60_exceptions.md R131, R132). -/
def State.faultsConsistent (s : State) : Bool :=
  s.faulted == !s.faults.isEmpty && s.faults.all fun f => opField f.word == 0b11#2

/-- No reserved command among these (spec/40_crc_commands.md R97). -/
def noReserved : List Instr → Bool
  | [] => true
  | .illegal _ :: _ => false
  | .nop _ :: rest => noReserved rest
  | .init _ :: rest => noReserved rest
  | .update _ :: rest => noReserved rest

/-- INIT stands before the first UPDATE of a computation (spec/70_reset_and_hazards.md R152). -/
def initFirst : List Instr → Bool
  | [] => true
  | .init _ :: _ => true
  | .update _ :: _ => false
  | .nop _ :: rest => initFirst rest
  | .illegal _ :: rest => initFirst rest

/-- Only NOPs and UPDATEs: what may follow the INIT of a computation before its result is read. -/
def absorbsOnly : List Instr → Bool
  | [] => true
  | .nop _ :: rest => absorbsOnly rest
  | .update _ :: rest => absorbsOnly rest
  | .init _ :: _ => false
  | .illegal _ :: _ => false

/-- Exclusive use (spec/70_reset_and_hazards.md R155): every command of the stretch, each with the host that issues it, is
host `h`'s. -/
def exclusiveUse (h : Nat) (cmds : List (Nat × Instr)) : Bool := cmds.all fun c => c.1 == h

/-- The host keeps presenting a word until it is accepted (spec/30_encoding.md R60). -/
def holdsUntilAccepted : List PortEvent → Bool
  | [] => true
  | [e] => !e.cmdValid || e.accepted
  | e :: e' :: rest =>
    (!e.cmdValid || e.accepted || (e'.cmdValid && e'.cmd == e.cmd)) && holdsUntilAccepted (e' :: rest)

/-- `crc_out` may be read as a result: the block is ready and no command waits (spec/70_reset_and_hazards.md R154).
R154 speaks of the reading host's own commands and says nothing of reset; that the answer is also no where the event to come is
a reset, or presents a command of whatever host, is the model's choice (DESIGN CHOICE, log entry 3).
With no event to come no level of `cmd_ready` is known, and how long it stays low is open; that the answer is then yes, even
right after an UPDATE, is the model's choice (DESIGN CHOICE, log entry 3). -/
def State.resultReadable (s : State) : Bool :=
  match s.inputs with
  | [] => true
  | e :: _ => e.cmdReady && !e.cmdValid && !e.rst

end Sys2Proof.Machine
end

