-- ==== Sys2Proof/Certificates/Slice0/Obligations.lean ====
section
/-! DEFINITION. The statements for the provers. -/
open Sys2Proof Sys2Proof.Machine

/-! ### Encoding (spec/30_encoding.md) -/

/-- Decode and encode agree on every command with every operand value, and so does the host's view of the decoder; and each
of the 1024 words is the encoding of what it decodes to: no bit of a word is dropped. That a command keeps the `data` bits which
NOP and INIT ignore (R64), on which the second clause rests, is the model's choice (log entry 12); so is the host's view of the
decoder (log entry 5). -/
def Obligations.DecodeEncodeRoundTrip : Prop :=
  (∀ i : Instr, i.wellFormed = true → decode (encode i) = i ∧ decodeTableWord 10 (encode i).toNat = some i) ∧
  (∀ w : CmdWord, encode (decode w) = w ∧ (decode w).wellFormed = true)

/-- R63: the four rows, that they cover all words, that no word matches two, and that the decoder follows them. -/
def Obligations.OpcodeRowsPartitionWords : Prop :=
  opcodeMap = [⟨"NOP", 0x000#10, 0x300#10⟩, ⟨"INIT", 0x100#10, 0x300#10⟩,
    ⟨"UPDATE", 0x200#10, 0x300#10⟩, ⟨"ILLEGAL", 0x300#10, 0x300#10⟩] ∧
  ∀ w : CmdWord, ∃ r ∈ opcodeMap, w &&& r.mask = r.matchWord ∧ (decode w).mnemonic = r.mnemonic ∧
    ∀ r' ∈ opcodeMap, w &&& r'.mask = r'.matchWord → r' = r

/-- Words written out from the spec's encoding (spec/95_test_vectors.md V9) decode to what they stand for. V9 says of 0x0FF and
0x1A5 "data ignored"; that the commands keep those bits is the model's choice (log entry 12). -/
def Obligations.WrittenWordsDecode : Prop :=
  decode 0b0000000000#10 = .nop 0x00#8 ∧ decode 0b0011111111#10 = .nop 0xFF#8 ∧
  decode 0b0100000000#10 = .init 0x00#8 ∧ decode 0b0110100101#10 = .init 0xA5#8 ∧
  decode 0b1000000000#10 = .update 0x00#8 ∧ decode 0b1001010101#10 = .update 0x55#8 ∧
  decode 0b1011111111#10 = .update 0xFF#8 ∧
  decode 0b1100000000#10 = .illegal 0x00#8 ∧ decode 0b1111111111#10 = .illegal 0xFF#8

/-- R64: UPDATE's operand is `cmd[7:0]` as it stands; NOP and INIT give the same effect for every `data`; canonical words. -/
def Obligations.OperandIsLowByte : Prop :=
  (∀ d : Byte, decode (0x200#10 ||| d.setWidth 10) = .update d) ∧
  (∀ (data : Byte) (s : State), exec (.nop data) s = exec (.nop 0x00#8) s) ∧
  (∀ (data : Byte) (s : State), exec (.init data) s = exec (.init 0x00#8) s) ∧
  encode (.nop 0x00#8) = 0x000#10 ∧ encode (.init 0x00#8) = 0x100#10

/-- The assembler's ranges and words (R66), operand by operand over all integers. -/
def Obligations.AssemblerWordsAndRanges : Prop :=
  assemble .nop = .ok [0x000#10] ∧ assemble .init = .ok [0x100#10] ∧
  (∀ n : Nat, n ≤ 255 → assemble (.update n) = .ok [0x200#10 ||| BitVec.ofNat 10 n]) ∧
  (∀ n : Int, n < 0 ∨ 255 < n → assemble (.update n) = .error .outOfRange) ∧
  (∀ n : Nat, n ≤ 1023 → assemble (.cmd n) = .ok [BitVec.ofNat 10 n]) ∧
  (∀ n : Int, n < 0 ∨ 1023 < n → assemble (.cmd n) = .error .outOfRange)

/-- Assembling the text the disassembler prints, one line per word, gives the words back, whatever they are; the text of a word
is `.cmd` exactly where it has no canonical form (R66). -/
def Obligations.DisassembledTextAssembles : Prop :=
  (∀ ws : List CmdWord, assembleProgram (ws.map disassemble) = .ok ws) ∧
  (∀ w : CmdWord, disassemble w = cmdText w ↔ (w ≠ 0x000#10 ∧ w ≠ 0x100#10 ∧ w &&& 0x300#10 ≠ 0x200#10))

/-- R67: the expansions of the pseudo-instructions, and what they leave in ACC when a block runs them. -/
def Obligations.PseudoInstructionsExpandAndRun : Prop :=
  (∀ bs : List Byte, crc8Commands bs = .init 0x00#8 :: bs.map Instr.update) ∧
  (∀ c lo hi : Byte, frameCrcCommands c lo hi = crc8Commands [c, lo, hi]) ∧
  (∀ (bs : List Byte) (c : Byte), checkCommands bs c = crc8Commands (bs ++ [c])) ∧
  (∀ ns : List Nat, (∀ n ∈ ns, n ≤ 255) →
    assemble (.crc8 (ns.map Int.ofNat)) = .ok (0x100#10 :: ns.map fun n => 0x200#10 ||| BitVec.ofNat 10 n)) ∧
  (∀ c lo hi : Nat, c ≤ 255 → lo ≤ 255 → hi ≤ 255 →
    assemble (.frameCrc c lo hi) = .ok [0x100#10, 0x200#10 ||| BitVec.ofNat 10 c, 0x200#10 ||| BitVec.ofNat 10 lo,
      0x200#10 ||| BitVec.ofNat 10 hi]) ∧
  (∀ (ns : List Nat) (c : Nat), (∀ n ∈ ns, n ≤ 255) → c ≤ 255 →
    assemble (.check (ns.map Int.ofNat) c) =
      .ok (0x100#10 :: (ns ++ [c]).map fun n => 0x200#10 ||| BitVec.ofNat 10 n)) ∧
  (∀ (s : State) (bs : List Byte) (rest : List PortEvent), s.inputs = presentAll (crc8Commands bs) ++ rest →
    run (bs.length + 1) s = .next { s with acc := crc8 s.cfg.poly bs, inputs := rest }) ∧
  (∀ (s : State) (bs : List Byte) (c : Byte) (rest : List PortEvent),
    s.inputs = presentAll (checkCommands bs c) ++ rest →
    ∃ t, run (bs.length + 2) s = .next t ∧ (c = crc8 s.cfg.poly bs → t.crcOut = 0x00#8) ∧
      (s.cfg.poly.getLsbD 0 = true → t.crcOut = 0x00#8 → c = crc8 s.cfg.poly bs))

/-! ### The commands (spec/40_crc_commands.md R83 to R85, spec/60_exceptions.md R131) -/

/-- R83: every word of NOP's row changes nothing, and a NOP between two UPDATEs does not change the result. -/
def Obligations.NopChangesNothing : Prop :=
  (∀ w : CmdWord, w &&& 0x300#10 = 0x000#10 → ∀ s : State, exec (decode w) s = .next s) ∧
  (∀ (s : State) (d e data : Byte) (rest : List PortEvent),
    s.inputs = presentAll [.update d, .nop data, .update e] ++ rest →
    run 3 s = run 2 { s with inputs := presentAll [.update d, .update e] ++ rest })

/-- R84: every word of INIT's row sets ACC to 0x00 and changes nothing else (so the fault mark stays); twice is once. -/
def Obligations.InitClearsAcc : Prop :=
  ∀ w : CmdWord, w &&& 0x300#10 = 0x100#10 → ∀ s : State,
    exec (decode w) s = .next { s with acc := 0x00#8 } ∧
    exec (decode w) { s with acc := 0x00#8 } = .next { s with acc := 0x00#8 }

/-- R85: every word of UPDATE's row XORs `cmd[7:0]` into ACC and makes eight rounds of "shift left, XOR POLY if the bit
shifted out was 1"; nothing else changes. The corner cases and the example of the rule follow it. -/
def Obligations.UpdateAbsorbsByte : Prop :=
  (∀ w : CmdWord, w &&& 0x300#10 = 0x200#10 → decode w = .update (w.setWidth 8) ∧ ∀ s : State,
    exec (decode w) s = .next { s with
      acc := (fun v : Byte => if v.getLsbD 7 then (v <<< 1) ^^^ s.cfg.poly else v <<< 1)^[8] (s.acc ^^^ w.setWidth 8) } ∧
    exec (decode w) s = .next { s with acc := upd s.cfg.poly s.acc (w.setWidth 8) }) ∧
  (∀ s : State, exec (.update s.acc) s = .next { s with acc := 0x00#8 }) ∧
  (∀ s : State, s.acc = 0x00#8 → exec (.update 0x00#8) s = .next { s with acc := 0x00#8 }) ∧
  (∀ (s : State) (d : Byte), s.acc ^^^ d = 0x01#8 → exec (.update d) s = .next { s with acc := s.cfg.poly }) ∧
  (∀ (s : State) (d : Byte), s.cfg.poly = 0x00#8 → exec (.update d) s = .next { s with acc := 0x00#8 }) ∧
  (∃ (s t u : State) (d : Byte), exec (.update d) s = .next t ∧ exec (.update d) t = .next u ∧ u.acc ≠ t.acc) ∧
  (∀ s : State, s.cfg.poly = 0x07#8 → s.acc = 0x00#8 → exec (decode 0x280#10) s = .next { s with acc := 0x89#8 }) ∧
  (List.range 9).map (fun k => bitsteps 0x07#8 k (0x00#8 ^^^ 0x80#8)) =
    [0x80#8, 0x07#8, 0x0E#8, 0x1C#8, 0x38#8, 0x70#8, 0xE0#8, 0xC7#8, 0x89#8]

/-- R131: every reserved word sets the mark and is recorded with cause code 1; ACC, and so `crc_out`, is unchanged; the
command is consumed; no command clears the mark, and no other command records anything. -/
def Obligations.ReservedWordIsRecorded : Prop :=
  (∀ w : CmdWord, w &&& 0x300#10 = 0x300#10 → ∀ s : State,
    (∃ t, exec (decode w) s = .next t ∧ t.acc = s.acc ∧ t.crcOut = s.crcOut ∧ t.faulted = true ∧
      .illegalCommand w ∈ t.faults) ∧
    ∀ rest : List PortEvent, s.inputs = .present w :: rest →
      ∃ t, step s = .next t ∧ t.crcOut = s.crcOut ∧ t.inputs = rest ∧ t.faulted = true) ∧
  (∀ w : CmdWord, (Fault.illegalCommand w).code = 1 ∧ (Fault.illegalCommand w).word = w) ∧
  (∀ (i : Instr) (s t : State), exec i s = .next t → s.faulted = true → t.faulted = true) ∧
  (∀ (i : Instr) (s t : State), exec i s = .next t → t.faults ≠ s.faults → ∃ data, i = .illegal data)

/-- A reserved word changes the fault mark and the record and nothing else, and the block goes on after it: the next accepted
command has its full effect (spec/95_test_vectors.md P5). That the record is a list, oldest first, is the model's choice (log
entry 4). -/
def Obligations.RunGoesOnAfterReservedWord : Prop :=
  ∀ (s : State) (w v : CmdWord) (rest : List PortEvent), w &&& 0x300#10 = 0x300#10 →
    exec (decode w) s = .next { s with faulted := true, faults := s.faults ++ [.illegalCommand w] } ∧
    (s.inputs = .present w :: .present v :: rest →
      run 2 s = exec (decode v)
        { s with faulted := true, faults := s.faults ++ [.illegalCommand w], inputs := rest })

/-- R130: NOP, INIT and UPDATE raise nothing, for any operand, state and POLY. -/
def Obligations.CommandsRaiseNothing : Prop :=
  ∀ (i : Instr) (s : State), (∀ data, i ≠ .illegal data) →
    ∃ t, exec i s = .next t ∧ t.faulted = s.faulted ∧ t.faults = s.faults

/-- The frame of every command: POLY and the events to come are never written, ACC only by INIT and UPDATE, the fault
mark and record only by the reserved code. -/
def Obligations.CommandFrame : Prop :=
  ∀ (i : Instr) (s t : State), exec i s = .next t →
    t.cfg = s.cfg ∧ t.inputs = s.inputs ∧
    ((∀ data, i ≠ .init data) → (∀ d, i ≠ .update d) → t.acc = s.acc) ∧
    ((∀ data, i ≠ .illegal data) → t.faulted = s.faulted ∧ t.faults = s.faults)

/-! ### The functions and their laws (spec/40_crc_commands.md R80 to R98) -/

/-- R80, bit by bit: bit `i` of the result is bit `i - 1` (0 at the bottom), XORed with bit `i` of POLY where the high bit
was 1; the rule's remark and examples. -/
def Obligations.BitstepShiftsAndFeedsBack : Prop :=
  (∀ (poly a : Byte) (i : Nat), i < 8 → (bitstep poly a).getLsbD i =
    ((decide (0 < i) && a.getLsbD (i - 1)) ^^ (a.getLsbD 7 && poly.getLsbD i))) ∧
  (∀ poly a : Byte, a.getLsbD 7 = false → bitstep poly a = a <<< 1) ∧
  bitstep 0x07#8 0x00#8 = 0x00#8 ∧ bitstep 0x07#8 0x7F#8 = 0xFE#8 ∧
  bitstep 0x07#8 0x80#8 = 0x07#8 ∧ bitstep 0x07#8 0xFF#8 = 0xF9#8

/-- R81: the byte is XORed in whole, once, and then eight bit-steps follow, whatever the data. R82: CRC-8 is the fold of
`upd` from 0x00, with no final XOR. -/
def Obligations.UpdAndCrcAreFolds : Prop :=
  (∀ poly a d : Byte, upd poly a d = (bitstep poly)^[8] (a ^^^ d)) ∧
  (∀ (poly : Byte) (xs : List Byte) (d : Byte), crc8 poly xs = xs.foldl (upd poly) 0x00#8 ∧
    crc8 poly [] = 0x00#8 ∧ crc8 poly (xs ++ [d]) = upd poly (crc8 poly xs) d)

/-- R86: feeding the data in bit by bit, high bit first, gives the same ACC for every POLY, ACC and byte. -/
def Obligations.BitSerialFormGivesSameAcc : Prop :=
  ∀ poly a d : Byte, [d.getLsbD 7, d.getLsbD 6, d.getLsbD 5, d.getLsbD 4, d.getLsbD 3, d.getLsbD 2, d.getLsbD 1,
      d.getLsbD 0].foldl (fun (v : Byte) (b : Bool) => if v.getLsbD 7 ^^ b then (v <<< 1) ^^^ poly else v <<< 1) a = upd poly a d ∧
    updSerial poly a d = upd poly a d

/-- R87: the CRC of the empty sequence, and `crc_out` after INIT with no UPDATE. -/
def Obligations.EmptySequenceGivesZero : Prop :=
  (∀ poly : Byte, crc8 poly [] = 0x00#8) ∧
  (∀ (s : State) (data : Byte), ∃ t, exec (.init data) s = .next t ∧ t.crcOut = 0x00#8)

/-- R89: linearity over GF(2), of the bit-step, of the byte update, and of the CRC of sequences of equal length. -/
def Obligations.CrcIsLinear : Prop :=
  (∀ poly a b : Byte, bitstep poly (a ^^^ b) = bitstep poly a ^^^ bitstep poly b) ∧
  (∀ poly a b d e : Byte, upd poly (a ^^^ b) (d ^^^ e) = upd poly a d ^^^ upd poly b e) ∧
  (∀ (poly : Byte) (xs ys : List Byte), xs.length = ys.length →
    crc8 poly (xorBytes xs ys) = crc8 poly xs ^^^ crc8 poly ys)

/-- R90: leading zero bytes change nothing. -/
def Obligations.LeadingZerosChangeNothing : Prop :=
  (∀ (poly : Byte) (xs : List Byte) (n : Nat), crc8 poly (List.replicate n 0x00#8 ++ xs) = crc8 poly xs) ∧
  (∀ (poly : Byte) (xs : List Byte), crc8 poly ([0x00#8] ++ xs) = crc8 poly xs) ∧
  (∀ (poly : Byte) (n : Nat), crc8 poly (List.replicate n 0x00#8) = 0x00#8)

/-- R91: the residue property, its converse where POLY[0] = 1, and that the converse fails where POLY[0] = 0. -/
def Obligations.ResidueProperty : Prop :=
  (∀ (poly : Byte) (xs : List Byte), crc8 poly (xs ++ [crc8 poly xs]) = 0x00#8) ∧
  (∀ poly : Byte, (∀ (xs : List Byte) (c : Byte), crc8 poly (xs ++ [c]) = 0x00#8 → c = crc8 poly xs) ↔
    poly.getLsbD 0 = true)

/-- R92 and spec/95_test_vectors.md P7: `[0x01]` gives POLY, for the function and for a block that runs it. -/
def Obligations.OneByteReadsBackPoly : Prop :=
  (∀ poly : Byte, crc8 poly [0x01#8] = poly) ∧
  (∀ (s : State) (rest : List PortEvent), s.inputs = presentAll [.init 0x00#8, .update 0x01#8] ++ rest →
    ∃ t, run 2 s = .next t ∧ t.crcOut = s.cfg.poly)

/-- R94: the byte table: `upd` through `T`, `T` linear and fixed by the single bits, one-to-one exactly for odd POLY, and a
table-driven UPDATE that gives the same. -/
def Obligations.ByteTableLaws : Prop :=
  ∀ poly : Byte,
    (∀ v, byteT poly v = (bitstep poly)^[8] v) ∧
    (∀ a d, upd poly a d = byteT poly (a ^^^ d)) ∧
    (∀ a b, byteT poly (a ^^^ b) = byteT poly a ^^^ byteT poly b) ∧
    byteT poly 0x00#8 = 0x00#8 ∧ byteT poly 0x01#8 = poly ∧
    (∀ v, byteT poly v = ((List.range 8).filter fun i => v.getLsbD i).foldl
      (fun x i => x ^^^ byteT poly (BitVec.twoPow 8 i)) 0x00#8) ∧
    (Function.Injective (byteT poly) ↔ poly.getLsbD 0 = true) ∧
    (∀ a d, updTable (byteTable poly) a d = upd poly a d)

/-- R95: an accumulator wider than eight bits, of any width or unbounded, never masked, ends with the same low byte. -/
def Obligations.WiderAccumulatorSameLowByte : Prop :=
  (∀ (n : Nat) (poly : Byte) (xs : List Byte), 8 ≤ n →
    (xs.foldl (wideUpd poly) (0 : BitVec n)).setWidth 8 = crc8 poly xs) ∧
  (∀ (poly : Byte) (xs : List Byte), BitVec.ofNat 8 (xs.foldl (unboundedUpd poly) 0) = crc8 poly xs)

/-- R96: a computation goes on from its accumulator; on a block it can be split anywhere, with NOPs between the UPDATEs, and
without an INIT between two computations the second starts from the first's result. -/
def Obligations.ComputationContinues : Prop :=
  (∀ (poly : Byte) (xs ys : List Byte), crc8 poly (xs ++ ys) = ys.foldl (upd poly) (crc8 poly xs)) ∧
  (∀ (s : State) (data : Byte) (first second : List Instr) (rest : List PortEvent),
    absorbsOnly first = true → absorbsOnly second = true →
    s.inputs = presentAll (.init data :: first ++ second) ++ rest →
    ∃ t u, run (first.length + 1) s = .next t ∧ t.acc = crc8 s.cfg.poly (updateBytes first) ∧
      run second.length t = .next u ∧ u.acc = (updateBytes second).foldl (upd s.cfg.poly) t.acc ∧
      u.acc = crc8 s.cfg.poly (updateBytes first ++ updateBytes second))

/-- R97: ACC after any command sequence without a reserved command: the CRC of the UPDATE bytes since the last INIT, or,
where there is no INIT, the fold from the ACC before; nothing else but the events taken has changed. -/
def Obligations.AccAfterCommandSequence : Prop :=
  (∀ (s : State) (before after : List Instr) (data : Byte) (rest : List PortEvent),
    noReserved before = true → absorbsOnly after = true →
    s.inputs = presentAll (before ++ .init data :: after) ++ rest →
    run (before.length + 1 + after.length) s =
      .next { s with acc := crc8 s.cfg.poly (updateBytes after), inputs := rest }) ∧
  (∀ (s : State) (is : List Instr) (rest : List PortEvent), absorbsOnly is = true →
    s.inputs = presentAll is ++ rest →
    run is.length s = .next { s with acc := (updateBytes is).foldl (upd s.cfg.poly) s.acc, inputs := rest })

/-- R98: the degenerate polynomial 0x00. -/
def Obligations.ZeroPolynomialGivesZero : Prop :=
  (∀ a : Byte, bitstep 0x00#8 a = a <<< 1) ∧ (∀ v : Byte, byteT 0x00#8 v = 0x00#8) ∧
  (∀ xs : List Byte, crc8 0x00#8 xs = 0x00#8) ∧
  (∀ (s : State) (d : Byte), s.cfg.poly = 0x00#8 → exec (.update d) s = .next { s with acc := 0x00#8 })

/-- The generator-polynomial reading of POLY (spec/00_scope.md R8, which the spec marks as general knowledge): UPDATE computes
`(acc XOR d) * x^8 mod G(x)` over GF(2), with `G(x) = x^8 + sum of POLY[i] x^i`. -/
def Obligations.UpdIsPolynomialRemainder : Prop :=
  ∀ poly a d : Byte,
    let bits : Byte → Polynomial (ZMod 2) := fun v => ∑ i : Fin 8, if v.getLsbD i then Polynomial.X ^ (i : Nat) else 0
    bits (upd poly a d) = (bits (a ^^^ d) * Polynomial.X ^ 8) %ₘ (Polynomial.X ^ 8 + bits poly)

/-- The order of the bytes counts (spec/20_memory.md R43). -/
def Obligations.ByteOrderCounts : Prop :=
  (∀ poly : Byte, crc8 poly [0x00#8, 0x01#8] = poly ∧ crc8 poly [0x01#8, 0x00#8] = byteT poly poly) ∧
  (∀ poly : Byte, crc8 poly [0x00#8, 0x01#8] = crc8 poly [0x01#8, 0x00#8] ↔ byteT poly poly = poly) ∧
  byteT 0x00#8 0x00#8 = 0x00#8 ∧ byteT 0x80#8 0x80#8 = 0x80#8 ∧
  crc8 0x07#8 [0x01#8, 0x00#8] = 0x15#8 ∧ crc8 0x07#8 [0x00#8, 0x01#8] = 0x07#8

/-! ### The step, the ports and the whole machine -/

/-- A word presented to a ready block, outside reset, is decoded and executed whole, and the event is taken. -/
def Obligations.StepRunsAcceptedCommand : Prop :=
  (∀ (s : State) (e : PortEvent) (rest : List PortEvent), s.inputs = e :: rest →
    e.rst = false → e.cmdValid = true → e.cmdReady = true →
    step s = exec (decode e.cmd) { s with inputs := rest }) ∧
  (∀ (s : State) (i : Instr) (rest : List PortEvent), s.inputs = .present (encode i) :: rest →
    step s = exec i { s with inputs := rest })

/-- The host's placed word is the one the next step runs. That a program comes to run by a host presenting words, so by
`withFetchWord`, and what the host's view of the decoder reads, is the model's choice (log entry 5). -/
def Obligations.PlacedWordRunsNext : Prop :=
  ∀ (s : State) (nbits w : Nat) (i : Instr), decodeTableWord nbits w = some i →
    step (s.withFetchWord nbits w) = exec i s

/-- A word presented while `cmd_ready` is 0, and an event with no word, have no effect; with nothing to come the state does
not change (spec/30_encoding.md R60; spec/10_state.md R20). -/
def Obligations.UnacceptedEventHasNoEffect : Prop :=
  (∀ (s : State) (e : PortEvent) (rest : List PortEvent), s.inputs = e :: rest →
    e.rst = false → (e.cmdValid = false ∨ e.cmdReady = false) →
    step s = .next { s with inputs := rest }) ∧
  (∀ s : State, s.inputs = [] → step s = .next s)

/-- R150: at an event with `rst = 1`, ACC and the fault mark take their reset values, POLY is not affected, and the word that
is presented is not accepted; a launch starts so. -/
def Obligations.ResetSetsTheState : Prop :=
  (∀ (s : State) (e : PortEvent) (rest : List PortEvent), s.inputs = e :: rest → e.rst = true →
    e.accepted = false ∧ ∃ t, step s = .next t ∧ t.acc = 0x00#8 ∧ t.faulted = false ∧ t.crcOut = 0x00#8 ∧
      t.cfg = s.cfg ∧ t.inputs = rest) ∧
  (∀ cfg : BlockConfig, (State.launch cfg).acc = 0x00#8 ∧ (State.launch cfg).faulted = false ∧
    (State.launch cfg).crcOut = crc8 cfg.poly [] ∧ (State.launch cfg).cfg = cfg)

/-- Reset abandons the command in progress (R150), shown on the bit-serial block that the model chose (log entries 8 and 13):
from reset on it does what a block of the same POLY does that never had one. -/
def Obligations.ResetAbandonsCommandInProgress : Prop :=
  ∀ (c : Serial) (i : SerialInput) (is : List SerialInput), i.rst = true →
    (c.cycle i).cmdReady = true ∧ (c.cycle i).crcOut = 0x00#8 ∧
    c.cycles (i :: is) = Serial.cycles { cfg := c.cfg, acc := 0x00#8, inner := 0x00#8, left := 0 } is

/-- What `State.reset` holds (spec/10_state.md R29). The empty record and the empty list of events are the model's choices
(log entries 2 and 4). -/
def Obligations.ResetStateValues : Prop :=
  State.reset.acc = 0x00#8 ∧ State.reset.faulted = false ∧ State.reset.crcOut = 0x00#8 ∧
  State.reset.faults = [] ∧ State.reset.causeCode = 0 ∧ State.reset.inputs = [] ∧ State.reset.cfg.poly = Config.poly ∧
  (∀ (s : State) (e : PortEvent) (rest : List PortEvent), s.inputs = e :: rest → e.rst = true →
    step s = .next { State.launch s.cfg with inputs := rest })

/-- R23: `crc_out` always equals ACC, reading it changes nothing, and after a command it shows what the command wrote. -/
def Obligations.CrcOutShowsAcc : Prop :=
  (∀ s : State, s.crcOut = s.acc ∧ s.readCrcOut = (s.acc, s)) ∧
  (∀ (i : Instr) (s : State), ∃ t, exec i s = .next t ∧ t.crcOut = t.acc)

/-- Events are taken one at a time, in the order presented, and none is skipped (spec/10_state.md R24). -/
def Obligations.EventsAreTakenInOrder : Prop :=
  ∀ (k : Nat) (s : State), ∃ t, run k s = .next t ∧ t.inputs = s.inputs.drop k

/-- POLY is never written: over any run, from any state (spec/10_state.md R26). -/
def Obligations.PolyNeverChanges : Prop :=
  ∀ (k : Nat) (s t : State), run k s = .next t → t.cfg = s.cfg

/-- Only INIT, UPDATE and reset write ACC, seen at the ports (spec/10_state.md R21). -/
def Obligations.OnlyInitUpdateAndResetWriteAcc : Prop :=
  ∀ s t : State, step s = .next t → t.acc ≠ s.acc →
    ∃ e rest, s.inputs = e :: rest ∧
      (e.rst = true ∨ (e.accepted = true ∧ (e.cmd &&& 0x300#10 = 0x100#10 ∨ e.cmd &&& 0x300#10 = 0x200#10)))

/-- Only an accepted reserved word sets the fault mark, and only reset clears it (spec/10_state.md R28). -/
def Obligations.OnlyReservedWordsMarkOnlyResetClears : Prop :=
  ∀ s t : State, step s = .next t →
    (s.faulted = false → t.faulted = true →
      ∃ e rest, s.inputs = e :: rest ∧ e.accepted = true ∧ e.cmd &&& 0x300#10 = 0x300#10) ∧
    (s.faulted = true → t.faulted = false → ∃ e rest, s.inputs = e :: rest ∧ e.rst = true)

/-- The invariant of the fault record: the mark is set exactly where something is recorded, and every recorded word is a
reserved one. Every step keeps it. That the record is a list, and that reset empties it, is the model's (log entry 4). -/
def Obligations.StepKeepsFaultRecord : Prop :=
  ∀ s t : State, s.faultsConsistent = true → step s = .next t → t.faultsConsistent = true

/-- The invariant of the fault record holds after reset. That the record is empty then is the model's reading (DEDUCED, log
entry 4). -/
def Obligations.ResetMeetsFaultRecord : Prop := State.reset.faultsConsistent = true

/-- The cause codes (spec/60_exceptions.md R132), in states where the mark and the record agree. -/
def Obligations.CauseCodeFollowsMark : Prop :=
  ∀ s : State, s.faultsConsistent = true →
    (s.causeCode = 0 ↔ s.faulted = false) ∧ (s.causeCode = 1 ↔ s.faulted = true)

/-- Two blocks with the same POLY and ACC and the same events hold the same ACC after any run, whatever is recorded in
either (R88: nothing but the sequence, the state and POLY counts; spec/10_state.md R28: the mark is bookkeeping). -/
def Obligations.FaultRecordNeverReachesAcc : Prop :=
  ∀ (k : Nat) (s s' t t' : State), s.cfg = s'.cfg → s.acc = s'.acc → s.inputs = s'.inputs →
    run k s = .next t → run k s' = .next t' → t.acc = t'.acc

/-- A command held until it is accepted runs exactly once, whatever the waits (spec/30_encoding.md R60, R61). -/
def Obligations.WaitsDoNotChangeTheResult : Prop :=
  (∀ held : List (Nat × Instr), holdsUntilAccepted (presentHeld held) = true) ∧
  (∀ (s : State) (held : List (Nat × Instr)) (rest : List PortEvent), s.inputs = presentHeld held ++ rest →
    run (presentHeld held).length s =
      run held.length { s with inputs := presentAll (held.map fun h => h.2) ++ rest })

/-- Where no accepted word is reserved, no fault is recorded: the premise "no fault recorded" is met by every run that issues
none (spec/10_state.md R28; spec/60_exceptions.md R131). -/
def Obligations.NoReservedWordNoFault : Prop :=
  ∀ (k : Nat) (s t : State), s.noFault = true →
    (∀ e ∈ s.inputs, e.accepted = true → e.cmd &&& 0x300#10 ≠ 0x300#10) → run k s = .next t → t.noFault = true

/-- Where `resultReadable` says that `crc_out` may be read as a result, the event to come leaves it as it is
(spec/70_reset_and_hazards.md R154). What `resultReadable` adds to R154 is the model's choice (log entry 3): it answers yes with no
event to come, even right after an UPDATE, so that yes is not the block's own readiness there, and no where the event to come is a
reset or presents a command of whatever host. -/
def Obligations.ReadableResultIsStable : Prop :=
  ∀ s : State, s.resultReadable = true →
    ∃ t, step s = .next t ∧ t.crcOut = s.crcOut ∧ (∀ e rest, s.inputs = e :: rest → t.inputs = rest)

/-! ### The bit-serial implementation (spec/10_state.md R27; spec/70_reset_and_hazards.md R154, R156) -/

/-- The atomic machine describes the bit-serial block that the model chose (log entry 13), at any finite latency: fed what the block's ports show over any list of
cycles, it takes every event, and whenever the block is ready the two show the same `crc_out`. -/
def Obligations.AtomicMachineDescribesBitSerialBlock : Prop :=
  ∀ (is : List SerialInput) (c : Serial) (s : State) (rest : List PortEvent),
    c.agrees s = true → s.inputs = c.events is ++ rest →
    ∃ t, run is.length s = .next t ∧ t.inputs = rest ∧ (c.cycles is).agrees t = true ∧
      ((c.cycles is).cmdReady = true → (c.cycles is).crcOut = t.crcOut)

/-- On the bit-serial block that the model chose (log entry 13), while an UPDATE is in progress `crc_out` shows the old ACC, and
it changes in one step, when the block is ready again (spec/70_reset_and_hazards.md R154). -/
def Obligations.OutputHeldUntilUpdateCompletes : Prop :=
  ∀ (c : Serial) (i : SerialInput), c.cmdReady = false → i.rst = false →
    ((c.cycle i).cmdReady = false ∧ (c.cycle i).crcOut = c.crcOut ∧ (c.cycle i).settled = c.settled) ∨
    ((c.cycle i).cmdReady = true ∧ (c.cycle i).crcOut = c.settled)

/-- On the bit-serial block that the model chose (log entry 13), an accepted UPDATE is complete after eight bit-steps, however
the cycles between them fall, and not before (spec/00_scope.md R6 SHIFTS_PER_BYTE). The spec admits other blocks: a table in
place of bit-steps (R94), and any finite latency (spec/70_reset_and_hazards.md R156). -/
def Obligations.BitSerialUpdateTakesEightShifts : Prop :=
  ∀ (c : Serial) (i : SerialInput) (d : Byte) (is : List SerialInput), c.cmdReady = true →
    i.rst = false → i.cmdValid = true → decode i.cmd = .update d →
    (∀ j ∈ is, j.rst = false) →
    ((is.countP fun j => j.shifts) < 8 →
      (c.cycles (i :: is)).cmdReady = false ∧ (c.cycles (i :: is)).crcOut = c.crcOut) ∧
    (∀ j : SerialInput, j.rst = false → j.shifts = true → (is.countP fun j => j.shifts) = 7 →
      (c.cycles (i :: (is ++ [j]))).cmdReady = true ∧
      (c.cycles (i :: (is ++ [j]))).crcOut = upd c.cfg.poly c.acc d)

/-! ### Several hosts, several blocks -/

/-- The schedules give exactly the interleavings of two hosts' sequences (spec/20_memory.md R50): what a schedule gives is a
merged sequence that, tagged with the hosts, holds each host's commands in their order and nothing else; and every merged
sequence arises from a schedule. -/
def Obligations.SchedulesGiveTheInterleavings : Prop :=
  (∀ (sched : List Bool) (xs ys : List Instr),
    ∃ merged : List (Bool × Instr), (merged.filter fun m => m.1).map (fun m => m.2) = xs ∧
      (merged.filter fun m => !m.1).map (fun m => m.2) = ys ∧ merged.map (fun m => m.2) = interleave sched xs ys) ∧
  (∀ merged : List (Bool × Instr),
    interleave (merged.map fun m => m.1) ((merged.filter fun m => m.1).map fun m => m.2)
      ((merged.filter fun m => !m.1).map fun m => m.2) = merged.map fun m => m.2)

/-- From a host's INIT to its read, the result is the fold over whatever UPDATEs of any host came after it
(spec/20_memory.md R50), and with exclusive use it is the CRC of that host's own bytes (spec/70_reset_and_hazards.md R155). -/
def Obligations.ExclusiveUseGivesOwnCrc : Prop :=
  ∀ (s : State) (h : Nat) (data : Byte) (cmds : List (Nat × Instr)) (rest : List PortEvent),
    absorbsOnly (cmds.map fun c => c.2) = true →
    s.inputs = presentAll (.init data :: cmds.map fun c => c.2) ++ rest →
    ∃ t, run (cmds.length + 1) s = .next t ∧
      t.crcOut = crc8 s.cfg.poly (updateBytes (cmds.map fun c => c.2)) ∧
      (exclusiveUse h cmds = true →
        t.crcOut = crc8 s.cfg.poly (updateBytes ((cmds.filter fun c => c.1 == h).map fun c => c.2)))

/-- With INIT before the first UPDATE of a computation, its result does not depend on the ACC before it; this is why the host
must issue INIT. Directly after a launch the first computation is correct without it as well
(spec/70_reset_and_hazards.md R152). -/
def Obligations.InitFirstForgetsEarlierAcc : Prop :=
  (∀ (s s' : State) (is : List Instr) (rest rest' : List PortEvent),
    noReserved is = true → initFirst is = true → updateBytes is ≠ [] → s.cfg = s'.cfg →
    s.inputs = presentAll is ++ rest → s'.inputs = presentAll is ++ rest' →
    ∃ t t', run is.length s = .next t ∧ run is.length s' = .next t' ∧ t.crcOut = t'.crcOut) ∧
  (∀ (cfg : BlockConfig) (is : List Instr), absorbsOnly is = true →
    ∃ t, run is.length { State.launch cfg with inputs := presentAll is } = .next t ∧
      t.crcOut = crc8 cfg.poly (updateBytes is))

/-- Several blocks share no state: a step of one leaves every other as it was (spec/60_exceptions.md R139). -/
def Obligations.BlocksShareNoState : Prop :=
  ∀ (blocks : List State) (k : Nat), ∃ after : List State, stepAt blocks k = .next after ∧
    after.length = blocks.length ∧ (∀ j, j ≠ k → after[j]? = blocks[j]?) ∧
    ∀ s, blocks[k]? = some s → ∃ t, step s = .next t ∧ after[k]? = some t

/-! ### The host's frames (spec/41_host_frames.md) -/

/-- R110: a parameterized frame is four bytes, the last the CRC of the first three; a block that runs the command sequence of
the rule shows it on `crc_out`. R111: a bare-select frame is the command byte alone. -/
def Obligations.FramesAndTheirChecksum : Prop :=
  (∀ (poly c : Byte) (r : DeviceRegister), bareFrame c = [c] ∧ (bareFrame c).length = 1 ∧
    (Request.select r).frame poly = [Config.commandByte r]) ∧
  (∀ poly c lo hi : Byte, parameterizedFrame poly c lo hi = [c, lo, hi, crc8 poly [c, lo, hi]] ∧
    (parameterizedFrame poly c lo hi).length = 4) ∧
  (∀ (poly lo hi : Byte) (r : DeviceRegister),
    (Request.write r lo hi).frame poly = parameterizedFrame poly (Config.commandByte r) lo hi) ∧
  (∀ c lo hi : Byte, frameCrcCommands c lo hi = [.init 0x00#8, .update c, .update lo, .update hi]) ∧
  (∀ (s : State) (c lo hi : Byte) (rest : List PortEvent), s.inputs = presentAll (frameCrcCommands c lo hi) ++ rest →
    ∃ t, run 4 s = .next t ∧ (parameterizedFrame s.cfg.poly c lo hi)[3]? = some t.crcOut)

/-- R114: the value of a response, low byte first, as a number; composing and splitting are inverse to each other. -/
def Obligations.ResponseValueRoundTrip : Prop :=
  (∀ r : Response, r.value = (r.valueHigh.setWidth 16 <<< 8 ||| r.valueLow.setWidth 16) ∧
    r.value.toNat = 256 * r.valueHigh.toNat + r.valueLow.toNat ∧
    lowByte r.value = r.valueLow ∧ highByte r.value = r.valueHigh) ∧
  (∀ v : Half, composeValue (lowByte v) (highByte v) = v)

/-- The response check is a comparison with the CRC of the value bytes; the check by residue accepts whatever it accepts, and
the two are the same check exactly when POLY[0] = 1 (spec/41_host_frames.md R115; R91). -/
def Obligations.ResponseCheckAndResidue : Prop :=
  (∀ (poly : Byte) (r : Response), r.checksumOk poly = true ↔ r.checksum = crc8 poly [r.valueLow, r.valueHigh]) ∧
  (∀ (poly : Byte) (r : Response), r.checksumOk poly = true → r.residueOk poly = true) ∧
  (∀ poly : Byte, (∀ r : Response, r.residueOk poly = r.checksumOk poly) ↔ poly.getLsbD 0 = true)

/-- R116: the temperature transform and its one example. -/
def Obligations.TemperatureTransform : Prop :=
  (∀ raw : Half, celsius raw = ((raw.toNat : Rat) - 4743 / 2) / 10) ∧
  celsius (composeValue 0xD3#8 0x09#8) = 287 / 20 ∧ (composeValue 0xD3#8 0x09#8).toNat = 2515

/-- A transaction's steps in order and its result (spec/41_host_frames.md R117, R118), with the settle delay fixed by the
register: 1 to 10 ms, longer for calibration operations than for simple reads. The original driver goes on whatever the bus did;
a hardened one aborts at a failed transfer. These readings of R118 are the model's. So are the place of the check, before a
decode step that a mismatch leaves out, and that decoding gives the raw 16-bit value of every register (log entry 10); and which
registers are calibration registers, and a delay as a whole number of milliseconds (log entry 9). -/
def Obligations.TransactionStepsAndResult : Prop :=
  (∀ (poly : Byte) (req : Request) (bus : Transfer),
    transaction poly .original req bus =
      ([.build (req.frame poly), .transmit transportAddress (req.frame poly), .settle (settleMs req),
        .receive transportAddress 3, .decode bus.buffer.value], .ok bus.buffer.value)) ∧
  (∀ (poly : Byte) (req : Request) (bus : Transfer), bus.transmitOk = false →
    transaction poly .hardened req bus =
      ([.build (req.frame poly), .transmit transportAddress (req.frame poly)], .error .transportError)) ∧
  (∀ (poly : Byte) (req : Request) (bus : Transfer), bus.transmitOk = true → bus.receiveOk = false →
    transaction poly .hardened req bus =
      ([.build (req.frame poly), .transmit transportAddress (req.frame poly), .settle (settleMs req),
        .receive transportAddress 3], .error .transportError)) ∧
  (∀ (poly : Byte) (req : Request) (bus : Transfer), bus.transmitOk = true → bus.receiveOk = true →
    bus.buffer.checksum ≠ crc8 poly [bus.buffer.valueLow, bus.buffer.valueHigh] →
    transaction poly .hardened req bus =
      ([.build (req.frame poly), .transmit transportAddress (req.frame poly), .settle (settleMs req),
        .receive transportAddress 3], .error .checksumMismatch)) ∧
  (∀ (poly : Byte) (req : Request) (bus : Transfer), bus.transmitOk = true → bus.receiveOk = true →
    bus.buffer.checksum = crc8 poly [bus.buffer.valueLow, bus.buffer.valueHigh] →
    transaction poly .hardened req bus =
      ([.build (req.frame poly), .transmit transportAddress (req.frame poly), .settle (settleMs req),
        .receive transportAddress 3, .decode bus.buffer.value], .ok bus.buffer.value)) ∧
  (∀ req : Request, 1 ≤ settleMs req ∧ settleMs req ≤ 10) ∧
  (∀ (r r' : DeviceRegister) (low high : Byte), isCalibration r = true →
    settleMs (.select r') < settleMs (.write r low high)) ∧
  (∀ (r : DeviceRegister) (low high low' high' : Byte),
    settleMs (.write r low high) = settleMs (.write r low' high'))

/-- The known-vector property of the before-RSOC frame, whatever its command byte and POLY (spec/41_host_frames.md R113, R121;
spec/95_test_vectors.md V1 row 3). -/
def Obligations.BeforeRsocFrameChecksum : Prop :=
  ∀ poly : Byte, ∃ checksum : Byte,
    (Request.default .beforeRsoc).frame poly = [Config.commandByte .beforeRsoc, 0x55#8, 0xAA#8, checksum] ∧
    checksum = crc8 poly [Config.commandByte .beforeRsoc, 0x55#8, 0xAA#8] ∧
    checksum = byteT poly (byteT poly (byteT poly (Config.commandByte .beforeRsoc) ^^^ 0x55#8) ^^^ 0xAA#8)
end

