-- ==== Sys2Proof/Laws/Crc.lean ====
section
/-! SUPPORT. The recursion equations of the CRC functions, for proofs by induction. -/
namespace Sys2Proof.Machine

@[simp] theorem bitsteps_zero (poly v : Byte) : bitsteps poly 0 v = v := rfl

@[simp] theorem bitsteps_succ (poly v : Byte) (n : Nat) :
    bitsteps poly (n + 1) v = bitsteps poly n (bitstep poly v) := rfl

/-- The last of `n + 1` bit-steps, taken off at the end. -/
theorem bitsteps_succ_last (poly v : Byte) (n : Nat) :
    bitsteps poly (n + 1) v = bitstep poly (bitsteps poly n v) := by
  induction n generalizing v with
  | zero => rfl
  | succ n ih => rw [bitsteps_succ, ih, bitsteps_succ]

@[simp] theorem updAll_nil (poly a : Byte) : updAll poly a [] = a := rfl

@[simp] theorem updAll_cons (poly a d : Byte) (xs : List Byte) :
    updAll poly a (d :: xs) = updAll poly (upd poly a d) xs := rfl

/-- UPDATE in terms of the byte table. -/
theorem upd_eq_byteT (poly a d : Byte) : upd poly a d = byteT poly (a ^^^ d) := rfl

end Sys2Proof.Machine
end

