-- ==== Sys2Proof/Laws/State.lean ====
section
/-! SUPPORT. One lemma per field per update of the state, and what one event at the ports brings. -/
namespace Sys2Proof.Machine

@[simp] theorem State.setAcc_cfg (s : State) (v : Byte) : (s.setAcc v).cfg = s.cfg := rfl
@[simp] theorem State.setAcc_acc (s : State) (v : Byte) : (s.setAcc v).acc = v := rfl
@[simp] theorem State.setAcc_faulted (s : State) (v : Byte) : (s.setAcc v).faulted = s.faulted := rfl
@[simp] theorem State.setAcc_faults (s : State) (v : Byte) : (s.setAcc v).faults = s.faults := rfl
@[simp] theorem State.setAcc_inputs (s : State) (v : Byte) : (s.setAcc v).inputs = s.inputs := rfl

@[simp] theorem State.raiseIllegal_cfg (s : State) (w : CmdWord) : (s.raiseIllegal w).cfg = s.cfg := rfl
@[simp] theorem State.raiseIllegal_acc (s : State) (w : CmdWord) : (s.raiseIllegal w).acc = s.acc := rfl
@[simp] theorem State.raiseIllegal_faulted (s : State) (w : CmdWord) : (s.raiseIllegal w).faulted = true := rfl
@[simp] theorem State.raiseIllegal_faults (s : State) (w : CmdWord) :
    (s.raiseIllegal w).faults = s.faults ++ [.illegalCommand w] := rfl
@[simp] theorem State.raiseIllegal_inputs (s : State) (w : CmdWord) : (s.raiseIllegal w).inputs = s.inputs := rfl

@[simp] theorem State.applyReset_cfg (s : State) : s.applyReset.cfg = s.cfg := rfl
@[simp] theorem State.applyReset_acc (s : State) : s.applyReset.acc = 0x00#8 := rfl
@[simp] theorem State.applyReset_faulted (s : State) : s.applyReset.faulted = false := rfl
@[simp] theorem State.applyReset_faults (s : State) : s.applyReset.faults = [] := rfl
@[simp] theorem State.applyReset_inputs (s : State) : s.applyReset.inputs = s.inputs := rfl

@[simp] theorem State.withInputs_cfg (s : State) (es : List PortEvent) : (s.withInputs es).cfg = s.cfg := rfl
@[simp] theorem State.withInputs_acc (s : State) (es : List PortEvent) : (s.withInputs es).acc = s.acc := rfl
@[simp] theorem State.withInputs_faulted (s : State) (es : List PortEvent) : (s.withInputs es).faulted = s.faulted := rfl
@[simp] theorem State.withInputs_faults (s : State) (es : List PortEvent) : (s.withInputs es).faults = s.faults := rfl
@[simp] theorem State.withInputs_inputs (s : State) (es : List PortEvent) : (s.withInputs es).inputs = es := rfl

@[simp] theorem State.crcOut_eq (s : State) : s.crcOut = s.acc := rfl

@[simp] theorem PortEvent.present_rst (w : CmdWord) : (PortEvent.present w).rst = false := rfl
@[simp] theorem PortEvent.present_cmd (w : CmdWord) : (PortEvent.present w).cmd = w := rfl
@[simp] theorem PortEvent.present_accepted (w : CmdWord) : (PortEvent.present w).accepted = true := rfl
@[simp] theorem PortEvent.waiting_rst (w : CmdWord) : (PortEvent.waiting w).rst = false := rfl
@[simp] theorem PortEvent.waiting_accepted (w : CmdWord) : (PortEvent.waiting w).accepted = false := rfl

/-- An accepted event is no reset. -/
theorem PortEvent.rst_of_accepted {e : PortEvent} (h : e.accepted = true) : e.rst = false := by
  rcases e with ⟨_ | _, _, _, _⟩ <;> simp_all [PortEvent.accepted]

theorem State.takeEvent_nil {s : State} (h : s.inputs = []) : s.takeEvent = .quiet := by
  simp [State.takeEvent, h]

theorem State.takeEvent_reset {s : State} {e : PortEvent} {rest : List PortEvent}
    (h : s.inputs = e :: rest) (hr : e.rst = true) : s.takeEvent = .reset (s.withInputs rest) := by
  simp [State.takeEvent, h, hr]

theorem State.takeEvent_accepted {s : State} {e : PortEvent} {rest : List PortEvent}
    (h : s.inputs = e :: rest) (ha : e.accepted = true) :
    s.takeEvent = .accepted e.cmd (s.withInputs rest) := by
  simp [State.takeEvent, h, ha, PortEvent.rst_of_accepted ha]

theorem State.takeEvent_notAccepted {s : State} {e : PortEvent} {rest : List PortEvent}
    (h : s.inputs = e :: rest) (hr : e.rst = false) (ha : e.accepted = false) :
    s.takeEvent = .notAccepted (s.withInputs rest) := by
  simp [State.takeEvent, h, hr, ha]

end Sys2Proof.Machine
end

