-- ==== Sys2Proof/Laws/Exec.lean ====
section
/-! SUPPORT. What a command and a step can do, said once: the inversion lemmas the proofs cite. -/
namespace Sys2Proof.Machine

/-- A command answers a next state, whatever the state. -/
theorem exec_answers_next (i : Instr) (s : State) : ∃ t, exec i s = .next t := by
  cases i <;> exact ⟨_, rfl⟩

/-- Everything a command can do. -/
theorem exec_cases {i : Instr} {s t : State} (h : exec i s = .next t) :
    (∃ data, i = .nop data ∧ t = s) ∨
    (∃ data, i = .init data ∧ t = s.setAcc Config.initValue) ∨
    (∃ d, i = .update d ∧ t = s.setAcc (upd s.cfg.poly s.acc d)) ∨
    (∃ data, i = .illegal data ∧ t = s.raiseIllegal (encode (.illegal data))) := by
  cases i with
  | nop data => exact .inl ⟨data, rfl, (Host.Outcome.next.inj h).symm⟩
  | init data => exact .inr (.inl ⟨data, rfl, (Host.Outcome.next.inj h).symm⟩)
  | update d => exact .inr (.inr (.inl ⟨d, rfl, (Host.Outcome.next.inj h).symm⟩))
  | illegal data => exact .inr (.inr (.inr ⟨data, rfl, (Host.Outcome.next.inj h).symm⟩))

/-- Everything a step can do: nothing is to come, a reset, a word without effect, or a command. -/
theorem step_cases {s t : State} (h : step s = .next t) :
    (s.inputs = [] ∧ t = s) ∨
    ∃ e rest, s.inputs = e :: rest ∧
      ((e.rst = true ∧ t = (s.withInputs rest).applyReset) ∨
       (e.rst = false ∧ e.accepted = false ∧ t = s.withInputs rest) ∨
       (e.accepted = true ∧ exec (decode e.cmd) (s.withInputs rest) = .next t)) := by
  rcases hi : s.inputs with _ | ⟨e, rest⟩
  · rw [step, State.takeEvent_nil hi] at h
    exact .inl ⟨rfl, (Host.Outcome.next.inj h).symm⟩
  · refine .inr ⟨e, rest, rfl, ?_⟩
    rcases hr : e.rst with _ | _
    · rcases ha : e.accepted with _ | _
      · rw [step, State.takeEvent_notAccepted hi hr ha] at h
        exact .inr (.inl ⟨rfl, rfl, (Host.Outcome.next.inj h).symm⟩)
      · rw [step, State.takeEvent_accepted hi ha] at h
        exact .inr (.inr ⟨rfl, h⟩)
    · rw [step, State.takeEvent_reset hi hr] at h
      exact .inl ⟨rfl, (Host.Outcome.next.inj h).symm⟩

end Sys2Proof.Machine
end

