-- ==== Sys2Proof/Laws/PerInstr.lean ====
section
/-! SUPPORT. Facts about every command, one lemma per constructor. -/
namespace Sys2Proof.Laws.RowOf

/-- The command's word is taken by the row of the opcode map that bears its mnemonic, and by no other. -/
def Statement (i : Instr) : Prop :=
  (opcodeMap.filter fun r => r.takes (encode i)).map (fun r => r.mnemonic) = [i.mnemonic]

theorem nop (data : Byte) : Statement (.nop data) := by
  unfold Statement; revert data; decide

theorem init (data : Byte) : Statement (.init data) := by
  unfold Statement; revert data; decide

theorem update (d : Byte) : Statement (.update d) := by
  unfold Statement; revert d; decide

theorem illegal (data : Byte) : Statement (.illegal data) := by
  unfold Statement; revert data; decide

end Sys2Proof.Laws.RowOf
end

