-- ==== Sys2Proof/Laws/Run.lean ====
section
/-! SUPPORT. Runs, one event at a time. -/
namespace Sys2Proof.Machine

@[simp] theorem run_zero (s : State) : run 0 s = .next s := rfl

/-- The first step of a run of any machine. -/
theorem coreRun_succ (M : Host.Core) {s t : M.State} (k : Nat) (h : M.step s = .next t) :
    M.run (k + 1) s = M.run k t := by
  simp only [Host.Core.run, h]

/-- The first event of a run. -/
theorem run_succ {s t : State} (k : Nat) (h : step s = .next t) : run (k + 1) s = run k t :=
  coreRun_succ Sys2Proof.core k h

/-- An accepted word is executed. -/
theorem step_eq_exec {s : State} {e : PortEvent} {rest : List PortEvent}
    (h : s.inputs = e :: rest) (ha : e.accepted = true) : step s = exec (decode e.cmd) (s.withInputs rest) := by
  rw [step, State.takeEvent_accepted h ha]

end Sys2Proof.Machine
end

