-- ==== Sys2Proof/Tests/Slice0.lean ====
section
/-! SUPPORT. Tests of the model's author. Expected values come from spec/95_test_vectors.md (V1 to V10, P1 to P7), from the
examples of the rules, or from hand calculation where said; then a witness for the hypotheses of every statement. -/
namespace Sys2Proof.Tests
open Sys2Proof.Machine

set_option maxRecDepth 20000

/-- A block with no fault recorded. -/
def block (poly acc : Byte) (inputs : List PortEvent) : State :=
  { cfg := { poly := poly }, acc := acc, faulted := false, faults := [], inputs := inputs }

/-- The state a step or a run ends in, where it ends in one. -/
def ended (o : Host.Outcome State Fault Refusal) : Option State :=
  match o with
  | .next t => some t
  | .fault _ => none
  | .refused _ => none

/-! ### WellFormed refuses ill-formed source lines (R66; V9's last line) -/

theorem test_update_range : (AsmLine.update 256).wellFormed = false ∧ (AsmLine.update (-1)).wellFormed = false ∧
    (AsmLine.update 0).wellFormed = true ∧ (AsmLine.update 255).wellFormed = true := by decide

theorem test_cmd_range : (AsmLine.cmd 1024).wellFormed = false ∧ (AsmLine.cmd (-1)).wellFormed = false ∧
    (AsmLine.cmd 0).wellFormed = true ∧ (AsmLine.cmd 1023).wellFormed = true := by decide

theorem test_pseudo_range : (AsmLine.crc8 [0, 256]).wellFormed = false ∧ (AsmLine.frameCrc 256 0 0).wellFormed = false ∧
    (AsmLine.frameCrc 0 (-1) 0).wellFormed = false ∧ (AsmLine.frameCrc 0 0 256).wellFormed = false ∧
    (AsmLine.check [256] 0).wellFormed = false ∧ (AsmLine.check [] 256).wellFormed = false := by decide

theorem test_canonical : (Instr.nop 0xFF#8).canonical = false ∧ (Instr.init 0xA5#8).canonical = false ∧
    (Instr.illegal 0x00#8).canonical = false ∧ (Instr.update 0xFF#8).canonical = true := by decide

/-! ### Decoding (V9): words written out bit by bit, `op` then `data` -/

theorem test_decode_nop : decode 0b0000000000#10 = .nop 0x00#8 ∧ decode 0b0011111111#10 = .nop 0xFF#8 := by decide
theorem test_decode_init : decode 0b0100000000#10 = .init 0x00#8 ∧ decode 0b0110100101#10 = .init 0xA5#8 := by decide
theorem test_decode_update : decode 0b1001010101#10 = .update 0x55#8 ∧ decode 0b1010000001#10 = .update 0x81#8 := by decide
theorem test_decode_illegal : decode 0b1100000000#10 = .illegal 0x00#8 ∧ decode 0b1111111111#10 = .illegal 0xFF#8 := by
  decide
theorem test_decodeTableWord : decodeTableWord 16 0x255 = some (.update 0x55#8) ∧ decodeTableWord 10 0x300 = some (.illegal 0#8) ∧
    decodeTableWord 16 0x400 = none := by decide
theorem test_decodeNat_rejects : decodeNat 1024 = .error (.widerThanTenBits 1024) ∧ decodeNat 1023 = .ok (.illegal 0xFF#8) := by
  decide

/-! ### The functions -/

/-- V5, both columns. -/
theorem test_bitstep :
    [0x00#8, 0x01#8, 0x55#8, 0x7F#8, 0x80#8, 0xAA#8, 0xC0#8, 0xFF#8].map (fun a => (bitstep 0x07#8 a, bitstep 0x31#8 a)) =
    [(0x00#8, 0x00#8), (0x02#8, 0x02#8), (0xAA#8, 0xAA#8), (0xFE#8, 0xFE#8), (0x07#8, 0x31#8), (0x53#8, 0x65#8),
     (0x87#8, 0xB1#8), (0xF9#8, 0xCF#8)] := by decide

/-- V6, the traces of ACC = 5A, d = 3C. -/
theorem test_update_trace :
    (List.range 9).map (fun k => bitsteps 0x07#8 k (0x5A#8 ^^^ 0x3C#8)) =
      [0x66#8, 0xCC#8, 0x9F#8, 0x39#8, 0x72#8, 0xE4#8, 0xCF#8, 0x99#8, 0x35#8] ∧
    (List.range 9).map (fun k => bitsteps 0x31#8 k (0x5A#8 ^^^ 0x3C#8)) =
      [0x66#8, 0xCC#8, 0xA9#8, 0x63#8, 0xC6#8, 0xBD#8, 0x4B#8, 0x96#8, 0x1D#8] := by decide

/-- V6, the bit-serial traces. -/
theorem test_bit_serial_trace :
    (List.range 9).map (fun k => ((msbFirst 0x3C#8).take k).foldl (serialBit 0x07#8) 0x5A#8) =
      [0x5A#8, 0xB4#8, 0x6F#8, 0xD9#8, 0xB2#8, 0x64#8, 0xCF#8, 0x99#8, 0x35#8] ∧
    updSerial 0x07#8 0x00#8 0x80#8 = 0x89#8 := by decide

/-- V2, rows 1, 6, 9, 12, 13, 14, 16, 19 and 23. -/
theorem test_crc8_vectors :
    crc8 0x07#8 [] = 0x00#8 ∧ crc8 0x07#8 [0xFF#8] = 0xF3#8 ∧ crc8 0x07#8 [0x01#8, 0x00#8] = 0x15#8 ∧
    crc8 0x07#8 [0x55#8, 0xAA#8] = 0x12#8 ∧ crc8 0x07#8 [0x12#8, 0x34#8] = 0xF1#8 ∧
    crc8 0x07#8 [0x31#8, 0x32#8, 0x33#8, 0x34#8, 0x35#8, 0x36#8, 0x37#8, 0x38#8, 0x39#8] = 0xF4#8 ∧
    crc8 0x07#8 [0x04#8, 0x55#8, 0xAA#8, 0xB9#8] = 0x00#8 ∧ crc8 0x07#8 [0x16#8, 0x15#8, 0x01#8, 0x00#8] = 0x64#8 ∧
    crc8 0x07#8 [0xD3#8, 0x09#8] = 0xBA#8 := by decide

/-- V7, the column `[0x04, 0x55, 0xAA]` and two of "123456789". -/
theorem test_crc8_polynomials :
    [0x00#8, 0x01#8, 0x07#8, 0x1D#8, 0x31#8, 0x80#8, 0x9B#8, 0xD5#8, 0xFF#8].map (fun p => crc8 p [0x04#8, 0x55#8, 0xAA#8]) =
      [0x00#8, 0xFB#8, 0xB9#8, 0x4A#8, 0x9E#8, 0x80#8, 0x57#8, 0x46#8, 0x3F#8] ∧
    [0x31#8, 0xD5#8].map (fun p =>
      crc8 p [0x31#8, 0x32#8, 0x33#8, 0x34#8, 0x35#8, 0x36#8, 0x37#8, 0x38#8, 0x39#8]) = [0xA2#8, 0xBC#8] := by decide

/-- V3, four rows of the byte table. -/
theorem test_byte_table :
    (List.range 16).map (fun k => byteT 0x07#8 (BitVec.ofNat 8 k)) =
      [0x00#8, 0x07#8, 0x0E#8, 0x09#8, 0x1C#8, 0x1B#8, 0x12#8, 0x15#8, 0x38#8, 0x3F#8, 0x36#8, 0x31#8, 0x24#8, 0x23#8, 0x2A#8,
       0x2D#8] ∧
    (List.range 16).map (fun k => updTable (byteTable 0x07#8) 0xF0#8 (BitVec.ofNat 8 k)) =
      [0xDE#8, 0xD9#8, 0xD0#8, 0xD7#8, 0xC2#8, 0xC5#8, 0xCC#8, 0xCB#8, 0xE6#8, 0xE1#8, 0xE8#8, 0xEF#8, 0xFA#8, 0xFD#8, 0xF4#8,
       0xF3#8] := by decide

/-- V8 row 5, and the same low bytes on sixteen bits. -/
theorem test_wider_accumulator :
    [0x80#8].foldl (unboundedUpd 0x07#8) 0 = 0x8389 ∧ [0x55#8, 0xAA#8].foldl (unboundedUpd 0x07#8) 0 = 0x540612 ∧
    [0x31#8, 0x32#8, 0x33#8, 0x34#8, 0x35#8, 0x36#8, 0x37#8, 0x38#8, 0x39#8].foldl (unboundedUpd 0x07#8) 0 =
      0x31A640F6F5FFC841FCF4 ∧
    [0x55#8, 0xAA#8].foldl (wideUpd 0x07#8) (0 : BitVec 16) = 0x0612#16 := by decide

/-! ### One step -/

/-- R83: ACC = 0x5A; `0x000`. -/
theorem test_step_nop : ended (step (block 0x07#8 0x5A#8 [.present 0x000#10])) = some (block 0x07#8 0x5A#8 []) := by decide

/-- R84: ACC = 0xF4; `0x100`, and with its data bits set. -/
theorem test_step_init : ended (step (block 0x07#8 0xF4#8 [.present 0x100#10])) = some (block 0x07#8 0x00#8 []) ∧
    ended (step (block 0x07#8 0xF4#8 [.present 0x1A5#10])) = some (block 0x07#8 0x00#8 []) := by decide

/-- R85: POLY = 0x07, ACC = 0x00, `0x280`; P2's third step, ACC = 0x1C, `0x255`. -/
theorem test_step_update : ended (step (block 0x07#8 0x00#8 [.present 0x280#10])) = some (block 0x07#8 0x89#8 []) ∧
    ended (step (block 0x07#8 0x1C#8 [.present 0x255#10])) = some (block 0x07#8 0xF8#8 []) := by decide

/-- P5's third and fourth steps. -/
theorem test_step_reserved : ended (step (block 0x07#8 0x07#8 [.present 0x3FF#10])) =
      some { block 0x07#8 0x07#8 [] with faulted := true, faults := [.illegalCommand 0x3FF#10] } ∧
    ended (step { block 0x07#8 0x07#8 [.present 0x200#10] with faulted := true, faults := [.illegalCommand 0x3FF#10] }) =
      some { block 0x07#8 0x15#8 [] with faulted := true, faults := [.illegalCommand 0x3FF#10] } := by decide

/-- R150: reset with a command presented; POLY stays, the command is not accepted. -/
theorem test_step_reset : ended (step { block 0x31#8 0x5A#8 [.resetWith true true 0x255#10, .present 0x255#10] with
      faulted := true, faults := [.illegalCommand 0x300#10] }) = some (block 0x31#8 0x00#8 [.present 0x255#10]) := by decide

/-- R60: a word presented while `cmd_ready` is 0 has no effect. -/
theorem test_step_waiting : ended (step (block 0x07#8 0x5A#8 [.waiting 0x255#10, .present 0x255#10])) =
    some (block 0x07#8 0x5A#8 [.present 0x255#10]) := by decide

/-- R20: without a command nothing changes. -/
theorem test_step_quiet : ended (step (block 0x07#8 0x5A#8 [])) = some (block 0x07#8 0x5A#8 []) := by decide

/-- A word placed after reset is the first that runs, whatever POLY is: INIT, and the reserved code. -/
theorem test_first_word_after_reset :
    (ended (step (State.reset.withFetchWord 16 0x1FF))).map (fun t => (t.acc, t.inputs)) = some (0x00#8, []) ∧
    (ended (step (State.reset.withFetchWord 16 0x3FF))).map (fun t => (t.faults, t.inputs)) =
      some ([.illegalCommand 0x3FF#10], []) ∧
    (ended (step (State.reset.withFetchWord 16 0x255))).map (fun t => (t.faulted, t.inputs)) = some (false, []) := by decide

/-- The bit-serial block: UPDATE 0x80 takes eight shifts, `crc_out` old until then (R85's trace, R154). -/
theorem test_serial_update :
    let start : Serial := { cfg := { poly := 0x07#8 }, acc := 0x00#8, inner := 0x00#8, left := 0 }
    let go : SerialInput := { rst := false, cmdValid := true, cmd := 0x280#10, shifts := false }
    let shift : SerialInput := { rst := false, cmdValid := false, cmd := 0x000#10, shifts := true }
    ((start.cycles (go :: List.replicate 7 shift)).crcOut, (start.cycles (go :: List.replicate 7 shift)).cmdReady,
     (start.cycles (go :: List.replicate 8 shift)).crcOut, (start.cycles (go :: List.replicate 8 shift)).cmdReady) =
    (0x00#8, false, 0x89#8, true) := by decide

/-! ### Text -/

/-- `update 0x55 ; comment` and `UPDATE`'s decimal form (R66). -/
theorem test_assemble_update :
    assembleLine ['u', 'p', 'd', 'a', 't', 'e', ' ', '0', 'x', '5', '5', ' ', ';', ' ', 'c'] = .ok [0x255#10] ∧
    assembleLine ['u', 'p', 'd', 'a', 't', 'e', ' ', '2', '5', '5'] = .ok [0x2FF#10] ∧
    assembleLine ['u', 'p', 'd', 'a', 't', 'e', ' ', '0', 'x', 'f', 'A'] = .ok [0x2FA#10] ∧
    assembleLine ['u', 'p', 'd', 'a', 't', 'e', ' ', '0', 'x', 'G'] = .error .badOperands ∧
    assembleLine ['u', 'p', 'd', 'a', 't', 'e', ' ', '1', 'A'] = .error .badOperands := by decide

/-- V9's last line. -/
theorem test_assemble_refuses :
    assembleLine ['u', 'p', 'd', 'a', 't', 'e', ' ', '2', '5', '6'] = .error .outOfRange ∧
    assembleLine ['u', 'p', 'd', 'a', 't', 'e', ' ', '-', '1'] = .error .outOfRange ∧
    assembleLine ['.', 'c', 'm', 'd', ' ', '0', 'x', '4', '0', '0'] = .error .outOfRange ∧
    assembleLine ['N', 'O', 'P'] = .error .unknownMnemonic := by decide

/-- `crc8 0x55, 0xAA` (P1) and `frame.crc 4, 0x55, 0xAA` and `check 0x34, 0x12, 0xD3` (R67). -/
theorem test_assemble_pseudo :
    assembleLine ['c', 'r', 'c', '8', ' ', '0', 'x', '5', '5', ',', ' ', '0', 'x', 'A', 'A'] = .ok [0x100#10, 0x255#10, 0x2AA#10] ∧
    assembleLine ['f', 'r', 'a', 'm', 'e', '.', 'c', 'r', 'c', ' ', '4', ',', '0', 'x', '5', '5', ',', '0', 'x', 'A', 'A'] =
      .ok [0x100#10, 0x204#10, 0x255#10, 0x2AA#10] ∧
    assembleLine ['c', 'h', 'e', 'c', 'k', ' ', '0', 'x', '3', '4', ',', '0', 'x', '1', '2', ',', '0', 'x', 'D', '3'] =
      .ok [0x100#10, 0x234#10, 0x212#10, 0x2D3#10] := by decide

theorem test_assemble_program :
    assembleProgram [['i', 'n', 'i', 't'], [';', 'x'], ['n', 'o', 'p']] = .ok [0x100#10, 0x000#10] := by decide

/-- V9's column of canonical disassembly: `.cmd 0x0FF`, `update 0xFF`, `init`. -/
theorem test_disassemble : disassemble 0x0FF#10 = ['.', 'c', 'm', 'd', ' ', '0', 'x', '0', 'F', 'F'] ∧
    disassemble 0x2FF#10 = ['u', 'p', 'd', 'a', 't', 'e', ' ', '0', 'x', 'F', 'F'] ∧
    disassemble 0x100#10 = ['i', 'n', 'i', 't'] := by decide

/-- R2: the identity string for POLY = 0x9B ends in `POLY=9B`. -/
theorem test_identity : (identityText 0x9B#8).drop 14 = ['P', 'O', 'L', 'Y', '=', '9', 'B'] := by decide

/-! ### Frames (V10; POLY = 0x07) -/

theorem test_before_rsoc_frame : parameterizedFrame 0x07#8 0x04#8 0x55#8 0xAA#8 = [0x04#8, 0x55#8, 0xAA#8, 0xB9#8] := by decide

theorem test_response_check : (Response.mk 0x34#8 0x12#8 0xD3#8).checksumOk 0x07#8 = true ∧
    (Response.mk 0x34#8 0x12#8 0xD2#8).checksumOk 0x07#8 = false ∧ (Response.mk 0x34#8 0x12#8 0xD3#8).residueOk 0x07#8 = true ∧
    (Response.mk 0x34#8 0x12#8 0xD3#8).value = 0x1234#16 := by decide

theorem test_hardened_transaction :
    (transaction 0x07#8 .hardened (.select .rsoc)
      { transmitOk := true, receiveOk := true, buffer := Response.mk 0x34#8 0x12#8 0xD2#8 }).2 = .error .checksumMismatch := by
  decide

/-! ### A witness for the hypotheses of every statement -/

theorem witness_DecodeEncodeRoundTrip : (Instr.update 0xFF#8).wellFormed = true := by decide

theorem witness_AssemblerWordsAndRanges : 255 ≤ 255 ∧ ((-1 : Int) < 0 ∨ (255 : Int) < -1) ∧ ((256 : Int) < 0 ∨ (255 : Int) < 256) ∧
    1023 ≤ 1023 ∧ ((1024 : Int) < 0 ∨ (1023 : Int) < 1024) := by decide

theorem witness_PseudoInstructionsExpandAndRun :
    (∀ n ∈ [0, 255], n ≤ 255) ∧ (∀ n ∈ ([] : List Nat), n ≤ 255) ∧ 255 ≤ 255 ∧
    (block 0x07#8 0x33#8 (presentAll (crc8Commands []))).inputs = presentAll (crc8Commands []) ++ [] ∧
    (block 0x07#8 0x33#8 (presentAll (crc8Commands [0x55#8, 0xAA#8]))).inputs =
      presentAll (crc8Commands [0x55#8, 0xAA#8]) ++ [] ∧
    (block 0x07#8 0x33#8 (presentAll (checkCommands [0x34#8, 0x12#8] 0xD3#8))).inputs =
      presentAll (checkCommands [0x34#8, 0x12#8] 0xD3#8) ++ [] ∧
    0xD3#8 = crc8 0x07#8 [0x34#8, 0x12#8] ∧ (0x07#8).getLsbD 0 = true := by decide

theorem witness_NopChangesNothing : 0x0FF#10 &&& 0x300#10 = 0x000#10 ∧
    (block 0x07#8 0x5A#8 (presentAll [.update 0x01#8, .nop 0xFF#8, .update 0x02#8])).inputs =
      presentAll [.update 0x01#8, .nop 0xFF#8, .update 0x02#8] ++ [] := by decide

theorem witness_InitClearsAcc : 0x1FF#10 &&& 0x300#10 = 0x100#10 := by decide

theorem witness_UpdateAbsorbsByte : 0x2FF#10 &&& 0x300#10 = 0x200#10 ∧ (block 0x07#8 0x00#8 []).acc = 0x00#8 ∧
    (block 0x07#8 0xFE#8 []).acc ^^^ 0xFF#8 = 0x01#8 ∧ (block 0x00#8 0xFE#8 []).cfg.poly = 0x00#8 ∧
    (block 0x07#8 0x00#8 []).cfg.poly = 0x07#8 := by decide

/-- With POLY = 0x07, 0x01 absorbed twice from 0x00 gives 0x07 and then 0x12 (V3: T(0x01), T(0x07 ^ 0x01)). -/
theorem witness_update_is_not_idempotent : upd 0x07#8 0x00#8 0x01#8 = 0x07#8 ∧ upd 0x07#8 0x07#8 0x01#8 = 0x12#8 := by decide

theorem witness_ReservedWordIsRecorded : 0x300#10 &&& 0x300#10 = 0x300#10 ∧ 0x3FF#10 &&& 0x300#10 = 0x300#10 ∧
    (block 0x07#8 0x07#8 [.present 0x3FF#10]).inputs = .present 0x3FF#10 :: [] ∧
    ended (exec (.illegal 0xFF#8) (block 0x07#8 0x07#8 [])) =
      some { block 0x07#8 0x07#8 [] with faulted := true, faults := [.illegalCommand 0x3FF#10] } ∧
    ended (exec (.init 0x00#8) { block 0x07#8 0x07#8 [] with faulted := true }) =
      some { block 0x07#8 0x00#8 [] with faulted := true } := by decide

theorem witness_RunGoesOnAfterReservedWord : 0x3FF#10 &&& 0x300#10 = 0x300#10 ∧
    (block 0x07#8 0x07#8 [.present 0x3FF#10, .present 0x200#10]).inputs = .present 0x3FF#10 :: .present 0x200#10 :: [] := by decide

theorem witness_CommandsRaiseNothing : ∀ data, Instr.update 0xFF#8 ≠ .illegal data := by decide

theorem witness_CommandFrame :
    ended (exec (.nop 0x00#8) (block 0x07#8 0x5A#8 [])) = some (block 0x07#8 0x5A#8 []) ∧
    ended (exec (.update 0x3C#8) (block 0x07#8 0x5A#8 [])) = some (block 0x07#8 0x35#8 []) ∧
    (∀ data, Instr.nop 0x00#8 ≠ .init data) ∧ (∀ d, Instr.nop 0x00#8 ≠ .update d) ∧
    (∀ data, Instr.update 0x3C#8 ≠ .illegal data) := by decide

theorem witness_BitstepShiftsAndFeedsBack : 0 < 8 ∧ 7 < 8 ∧ (0x7F#8).getLsbD 7 = false ∧ (0x80#8).getLsbD 7 = true := by decide

theorem witness_CrcIsLinear : [0x12#8, 0x34#8].length = [0x55#8, 0xAA#8].length ∧ ([] : List Byte).length = ([] : List Byte).length := by
  decide

/-- POLY = 0x80: T(0xFF) = 0x00 (V7), so the wrong checksum 0xFF of the empty sequence leaves 0x00. -/
theorem witness_ResidueProperty : crc8 0x07#8 ([0x34#8, 0x12#8] ++ [0xD3#8]) = 0x00#8 ∧ (0x07#8).getLsbD 0 = true ∧
    (0x80#8).getLsbD 0 = false ∧ crc8 0x80#8 ([] ++ [0xFF#8]) = 0x00#8 := by decide

theorem witness_OneByteReadsBackPoly : (block 0x9B#8 0x33#8 (presentAll [.init 0x00#8, .update 0x01#8])).inputs =
    presentAll [.init 0x00#8, .update 0x01#8] ++ [] := by decide

theorem witness_WiderAccumulatorSameLowByte : 8 ≤ 8 ∧ 8 ≤ 64 := by decide

theorem witness_ComputationContinues : absorbsOnly [.update 0x01#8, .nop 0x00#8] = true ∧ absorbsOnly [.update 0x55#8] = true ∧
    (block 0x07#8 0x33#8 (presentAll [.init 0x00#8, .update 0x01#8, .nop 0x00#8, .update 0x55#8])).inputs =
      presentAll (.init 0x00#8 :: [.update 0x01#8, .nop 0x00#8] ++ [.update 0x55#8]) ++ [] := by decide

theorem witness_AccAfterCommandSequence : noReserved [.update 0x01#8, .init 0x00#8] = true ∧ absorbsOnly [.update 0x55#8] = true ∧
    (block 0x07#8 0x33#8 (presentAll [.update 0x01#8, .init 0x00#8, .init 0x00#8, .update 0x55#8])).inputs =
      presentAll ([.update 0x01#8, .init 0x00#8] ++ .init 0x00#8 :: [.update 0x55#8]) ++ [] ∧
    (block 0x07#8 0x33#8 (presentAll [.update 0x55#8])).inputs = presentAll [.update 0x55#8] ++ [] := by decide

theorem witness_ZeroPolynomialGivesZero : (block 0x00#8 0x5A#8 []).cfg.poly = 0x00#8 := by decide

theorem witness_StepRunsAcceptedCommand :
    (block 0x07#8 0x00#8 [.present 0x280#10]).inputs = .present 0x280#10 :: [] ∧ (PortEvent.present 0x280#10).rst = false ∧
    (PortEvent.present 0x280#10).cmdValid = true ∧ (PortEvent.present 0x280#10).cmdReady = true ∧
    (block 0x07#8 0x00#8 [.present 0x280#10]).inputs = .present (encode (.update 0x80#8)) :: [] := by decide

theorem witness_PlacedWordRunsNext : decodeTableWord 16 0x3FF = some (.illegal 0xFF#8) ∧
    decodeTableWord 10 0x000 = some (.nop 0x00#8) := by decide

theorem witness_UnacceptedEventHasNoEffect :
    (block 0x07#8 0x5A#8 [.waiting 0x255#10]).inputs = .waiting 0x255#10 :: [] ∧ (PortEvent.waiting 0x255#10).rst = false ∧
    (PortEvent.waiting 0x255#10).cmdReady = false ∧
    (PortEvent.mk false false true 0x255#10).rst = false ∧ (PortEvent.mk false false true 0x255#10).cmdValid = false ∧
    (block 0x07#8 0x5A#8 []).inputs = [] := by decide

theorem witness_ResetSetsTheState :
    (block 0x07#8 0x5A#8 [.resetWith true true 0x255#10]).inputs = .resetWith true true 0x255#10 :: [] ∧
    (PortEvent.resetWith true true 0x255#10).rst = true := by decide

theorem witness_PolyNeverChanges : ended (run 3 (block 0x31#8 0x5A#8 [.present 0x200#10, .resetWith true true 0x3FF#10,
    .present 0x3FF#10])) = some { block 0x31#8 0x00#8 [] with faulted := true, faults := [.illegalCommand 0x3FF#10] } := by decide

/-- A bit-serial block in mid-UPDATE, and reset. -/
theorem witness_ResetAbandonsCommandInProgress :
    let busy : Serial := { cfg := { poly := 0x07#8 }, acc := 0x5A#8, inner := 0xC7#8, left := 3 }
    (SerialInput.mk true true 0x255#10 true).rst = true ∧ busy.cmdReady = false := by decide

/-- ACC changes by INIT, by UPDATE and by reset. -/
theorem witness_OnlyInitUpdateAndResetWriteAcc :
    (ended (step (block 0x07#8 0xF4#8 [.present 0x100#10]))).map State.acc = some 0x00#8 ∧
    (ended (step (block 0x07#8 0x5A#8 [.present 0x23C#10]))).map State.acc = some 0x35#8 ∧
    (ended (step (block 0x07#8 0x5A#8 [.resetWith false false 0x000#10]))).map State.acc = some 0x00#8 := by decide

/-- The mark is set by `0x300` and cleared by reset. -/
theorem witness_OnlyReservedWordsMarkOnlyResetClears :
    (ended (step (block 0x07#8 0x5A#8 [.present 0x300#10]))).map State.faulted = some true ∧
    (ended (step { block 0x07#8 0x5A#8 [.resetWith false true 0x000#10] with faulted := true })).map State.faulted = some false := by
  decide

theorem witness_StepKeepsFaultRecord :
    ({ block 0x07#8 0x5A#8 [.present 0x3FF#10] with faulted := true, faults := [.illegalCommand 0x300#10] }).faultsConsistent = true ∧
    (block 0x07#8 0x5A#8 [.present 0x3FF#10]).faultsConsistent = true ∧
    (ended (step (block 0x07#8 0x5A#8 [.present 0x3FF#10]))).isSome = true ∧
    ({ block 0x07#8 0x5A#8 [] with faulted := true }).faultsConsistent = false := by decide

theorem witness_CauseCodeFollowsMark : (block 0x07#8 0x5A#8 []).faultsConsistent = true ∧ (block 0x07#8 0x5A#8 []).causeCode = 0 ∧
    ({ block 0x07#8 0x5A#8 [] with faulted := true, faults := [.illegalCommand 0x300#10] }).faultsConsistent = true ∧
    ({ block 0x07#8 0x5A#8 [] with faulted := true, faults := [.illegalCommand 0x300#10] }).causeCode = 1 := by decide

/-- Two blocks that differ in the record alone, after one UPDATE. -/
theorem witness_FaultRecordNeverReachesAcc :
    ended (run 1 (block 0x07#8 0x5A#8 [.present 0x23C#10])) = some (block 0x07#8 0x35#8 []) ∧
    ended (run 1 { block 0x07#8 0x5A#8 [.present 0x23C#10] with faulted := true, faults := [.illegalCommand 0x300#10] }) =
      some { block 0x07#8 0x35#8 [] with faulted := true, faults := [.illegalCommand 0x300#10] } := by decide

theorem witness_WaitsDoNotChangeTheResult :
    (block 0x07#8 0x5A#8 (presentHeld [(2, .update 0x3C#8), (0, .nop 0x00#8)])).inputs =
      presentHeld [(2, .update 0x3C#8), (0, .nop 0x00#8)] ++ [] ∧
    (presentHeld [(2, .update 0x3C#8), (0, .nop 0x00#8)]).length = 4 ∧
    holdsUntilAccepted (presentHeld [(2, .update 0x3C#8), (0, .nop 0x00#8)]) = true := by decide

theorem witness_NoReservedWordNoFault : (block 0x07#8 0x5A#8 [.waiting 0x3FF#10, .present 0x2FF#10]).noFault = true ∧
    (∀ e ∈ [PortEvent.waiting 0x3FF#10, .present 0x2FF#10], e.accepted = true → e.cmd &&& 0x300#10 ≠ 0x300#10) ∧
    (ended (run 2 (block 0x07#8 0x5A#8 [.waiting 0x3FF#10, .present 0x2FF#10]))).isSome = true := by decide

theorem witness_ReadableResultIsStable : (block 0x07#8 0x12#8 []).resultReadable = true ∧
    (block 0x07#8 0x12#8 [.mk false false true 0x000#10]).resultReadable = true := by decide

/-- Two blocks with different ACC, `nop; init; update 0x55`. -/
theorem witness_InitFirstForgetsEarlierAcc : absorbsOnly [.update 0x55#8, .update 0xAA#8] = true ∧ initFirst [.update 0x55#8] = false ∧
    noReserved [.nop 0x00#8, .init 0x00#8, .update 0x55#8] = true ∧
    initFirst [.nop 0x00#8, .init 0x00#8, .update 0x55#8] = true ∧
    updateBytes [.nop 0x00#8, .init 0x00#8, .update 0x55#8] ≠ [] ∧
    (block 0x07#8 0x12#8 []).cfg = (block 0x07#8 0xF4#8 []).cfg ∧
    (block 0x07#8 0x12#8 (presentAll [.nop 0x00#8, .init 0x00#8, .update 0x55#8])).inputs =
      presentAll [.nop 0x00#8, .init 0x00#8, .update 0x55#8] ++ [] ∧
    (block 0x07#8 0xF4#8 (presentAll [.nop 0x00#8, .init 0x00#8, .update 0x55#8])).inputs =
      presentAll [.nop 0x00#8, .init 0x00#8, .update 0x55#8] ++ [] := by decide

/-- A ready bit-serial block, and one in mid-UPDATE, each with the atomic state it agrees with. -/
theorem witness_AtomicMachineDescribesBitSerialBlock :
    let ready : Serial := { cfg := { poly := 0x07#8 }, acc := 0x5A#8, inner := 0x00#8, left := 0 }
    let busy : Serial := { cfg := { poly := 0x07#8 }, acc := 0x00#8, inner := 0xC7#8, left := 1 }
    let i : SerialInput := { rst := false, cmdValid := true, cmd := 0x23C#10, shifts := true }
    ready.agrees (block 0x07#8 0x5A#8 (ready.events [i, i])) = true ∧
    busy.agrees (block 0x07#8 0x89#8 (busy.events [i, i])) = true ∧
    (block 0x07#8 0x89#8 (busy.events [i, i])).inputs = busy.events [i, i] ++ [] ∧ (busy.cycles [i]).cmdReady = true := by decide

theorem witness_OutputHeldUntilUpdateCompletes :
    let busy : Nat → Serial := fun n => { cfg := { poly := 0x07#8 }, acc := 0x00#8, inner := 0xC7#8, left := n }
    let i : SerialInput := { rst := false, cmdValid := false, cmd := 0x000#10, shifts := true }
    (busy 1).cmdReady = false ∧ (busy 8).cmdReady = false ∧ i.rst = false ∧
    ((busy 1).cycle i).cmdReady = true ∧ ((busy 2).cycle i).cmdReady = false := by decide

theorem witness_BitSerialUpdateTakesEightShifts :
    let ready : Serial := { cfg := { poly := 0x07#8 }, acc := 0x00#8, inner := 0x00#8, left := 0 }
    let go : SerialInput := { rst := false, cmdValid := true, cmd := 0x280#10, shifts := false }
    let shift : SerialInput := { rst := false, cmdValid := false, cmd := 0x000#10, shifts := true }
    ready.cmdReady = true ∧ decode go.cmd = .update 0x80#8 ∧ (∀ j ∈ go :: List.replicate 7 shift, j.rst = false) ∧
    (List.countP (fun j : SerialInput => j.shifts) (go :: List.replicate 7 shift)) = 7 ∧
    (ready.cycles (go :: ((go :: List.replicate 7 shift) ++ [shift]))).crcOut = 0x89#8 := by decide

theorem witness_ExclusiveUseGivesOwnCrc :
    absorbsOnly ([(0, Instr.update 0x55#8), (0, .update 0xAA#8)].map fun c => c.2) = true ∧
    exclusiveUse 0 [(0, .update 0x55#8), (0, .update 0xAA#8)] = true ∧
    exclusiveUse 0 [(0, .update 0x55#8), (1, .update 0xAA#8)] = false ∧
    (block 0x07#8 0x33#8 (presentAll [.init 0x00#8, .update 0x55#8, .update 0xAA#8])).inputs =
      presentAll (.init 0x00#8 :: [(0, Instr.update 0x55#8), (0, .update 0xAA#8)].map fun c => c.2) ++ [] := by decide

theorem witness_BlocksShareNoState : 1 ≠ 0 ∧ [block 0x07#8 0x5A#8 [], block 0x31#8 0x33#8 []][0]? = some (block 0x07#8 0x5A#8 []) := by
  decide

theorem witness_FramesAndTheirChecksum :
    (block 0x07#8 0x33#8 (presentAll (frameCrcCommands 0x04#8 0x55#8 0xAA#8))).inputs =
      presentAll (frameCrcCommands 0x04#8 0x55#8 0xAA#8) ++ [] := by decide

/-- The four ways a hardened host's transfer goes, under POLY = 0x07 (V10 rows 3 and 4), and a calibration register. -/
theorem witness_TransactionStepsAndResult :
    let bus : Bool → Bool → Byte → Transfer := fun t r c => { transmitOk := t, receiveOk := r, buffer := .mk 0x34#8 0x12#8 c }
    (bus false true 0xD3#8).transmitOk = false ∧
    (bus true false 0xD3#8).transmitOk = true ∧ (bus true false 0xD3#8).receiveOk = false ∧
    (bus true true 0xD2#8).buffer.checksum ≠ crc8 0x07#8 [0x34#8, 0x12#8] ∧
    (bus true true 0xD3#8).buffer.checksum = crc8 0x07#8 [0x34#8, 0x12#8] ∧
    isCalibration .packThermistorAdjustment = true ∧ isCalibration .cellVoltage = false := by decide

theorem witness_ResponseCheckAndResidue : (Response.mk 0x34#8 0x12#8 0xD3#8).checksumOk 0x07#8 = true ∧
    (Response.mk 0x00#8 0x00#8 0xFF#8).residueOk 0x80#8 = true ∧ (Response.mk 0x00#8 0x00#8 0xFF#8).checksumOk 0x80#8 = false := by
  decide

/-- R154: with nothing waiting and the block ready the result may be read; with a command waiting it may not. -/
theorem test_result_readable : (block 0x07#8 0x12#8 []).resultReadable = true ∧
    (block 0x07#8 0x12#8 [.mk false false true 0x000#10]).resultReadable = true ∧
    (block 0x07#8 0x12#8 [.mk false false false 0x000#10]).resultReadable = false ∧
    (block 0x07#8 0x12#8 [.present 0x255#10]).resultReadable = false := by decide

end Sys2Proof.Tests
end

section
/-! PROOFS. The port `crc_out` (spec/10_state.md R23). -/
namespace Sys2Proof.Machine

/-- A host's read of `crc_out` answers ACC and leaves every field alone. -/
@[simp] theorem State.readCrcOut_eq (s : State) : s.readCrcOut = (s.acc, s) := rfl

/-- Settles O36: the port shows ACC in every state, so also in the state each command answers. -/
theorem crcOutShowsAcc : Obligations.CrcOutShowsAcc := by
  unfold Obligations.CrcOutShowsAcc
  refine ⟨fun s => ⟨s.crcOut_eq, s.readCrcOut_eq⟩, fun i s => ?_⟩
  obtain ⟨t, ht⟩ := exec_answers_next i s
  exact ⟨t, ht, t.crcOut_eq⟩

end Sys2Proof.Machine
end

section
/-! PROOFS. The command word: its two fields, and that encoder and decoder are inverse to each other (spec/30_encoding.md R62, R63). -/
namespace Sys2Proof.Machine

@[simp] theorem opField_or_setWidth (w : CmdWord) (d : Byte) : opField (w ||| d.setWidth 10) = opField w := by
  ext i hi
  have hbit : (d.setWidth 10).getLsbD (8 + i) = false := by
    rw [BitVec.getLsbD_setWidth, BitVec.getLsbD_of_ge d (8 + i) (by omega), Bool.and_false]
  simp [opField, ← BitVec.getLsbD_eq_getElem, hi, hbit]

@[simp] theorem dataField_or_setWidth (w : CmdWord) (d : Byte) :
    dataField (w ||| d.setWidth 10) = dataField w ||| d := by
  ext i hi
  have hlt : i < 10 := by omega
  simp [dataField, ← BitVec.getLsbD_eq_getElem, hi, hlt]

/-- `cmd[9:0]` is `op` with `data` below it. -/
theorem opField_append_dataField (w : CmdWord) : opField w ++ dataField w = w :=
  (BitVec.extractLsb'_append_extractLsb'_eq_extractLsb' rfl).trans BitVec.extractLsb'_eq_self

theorem cmdWord_ext {w v : CmdWord} (hop : opField w = opField v) (hdata : dataField w = dataField v) : w = v := by
  rw [← opField_append_dataField w, hop, hdata, opField_append_dataField v]

theorem opField_matchWord_nop (data : Byte) : opField (Instr.nop data).matchWord = 0b00#2 := by
  simp [opField, Instr.matchWord]

theorem opField_matchWord_init (data : Byte) : opField (Instr.init data).matchWord = 0b01#2 := by
  simp [opField, Instr.matchWord]

theorem opField_matchWord_update (d : Byte) : opField (Instr.update d).matchWord = 0b10#2 := by
  simp [opField, Instr.matchWord]

theorem opField_matchWord_illegal (data : Byte) : opField (Instr.illegal data).matchWord = 0b11#2 := by
  simp [opField, Instr.matchWord]

theorem dataField_matchWord (i : Instr) : dataField i.matchWord = 0x00#8 := by
  cases i <;> simp [dataField, Instr.matchWord]

theorem opField_encode (i : Instr) : opField (encode i) = opField i.matchWord :=
  opField_or_setWidth i.matchWord i.data

theorem dataField_encode (i : Instr) : dataField (encode i) = i.data := by
  rw [encode, dataField_or_setWidth, dataField_matchWord, BitVec.zero_or]

theorem opField_matchWord_decode (w : CmdWord) : opField (decode w).matchWord = opField w := by
  unfold decode
  split_ifs with hnop hinit hupdate
  · rw [opField_matchWord_nop, hnop]
  · rw [opField_matchWord_init, hinit]
  · rw [opField_matchWord_update, hupdate]
  · rw [opField_matchWord_illegal]
    bv_omega

theorem data_decode (w : CmdWord) : (decode w).data = dataField w := by
  unfold decode
  split_ifs <;> rfl

/-- The decoder gives back every command, with its operand as it stands. -/
@[simp] theorem decode_encode (i : Instr) : decode (encode i) = i := by
  rw [decode, opField_encode, dataField_encode]
  cases i with
  | nop data => rw [opField_matchWord_nop]; rfl
  | init data => rw [opField_matchWord_init]; rfl
  | update d => rw [opField_matchWord_update]; rfl
  | illegal data => rw [opField_matchWord_illegal]; rfl

/-- The encoder gives back every word: the decoder drops no bit. -/
@[simp] theorem encode_decode (w : CmdWord) : encode (decode w) = w :=
  cmdWord_ext ((opField_encode _).trans (opField_matchWord_decode w)) ((dataField_encode _).trans (data_decode w))

/-- The one row of the opcode map that takes a command's word bears the command's mnemonic. -/
theorem rowOf (i : Instr) : Laws.RowOf.Statement i := by
  cases i with
  | nop data => exact Laws.RowOf.nop data
  | init data => exact Laws.RowOf.init data
  | update d => exact Laws.RowOf.update d
  | illegal data => exact Laws.RowOf.illegal data

theorem OpcodeRow.takes_iff (r : OpcodeRow) (w : CmdWord) : r.takes w = true ↔ w &&& r.mask = r.matchWord :=
  beq_iff_eq

/-- Settles O2: every word is the word of the command it decodes to, and one row alone takes that. -/
theorem opcodeRowsPartitionWords : Obligations.OpcodeRowsPartitionWords := by
  unfold Obligations.OpcodeRowsPartitionWords
  refine ⟨rfl, fun w => ?_⟩
  have hrow := rowOf (decode w)
  rw [Laws.RowOf.Statement, encode_decode, List.map_eq_singleton_iff] at hrow
  obtain ⟨r, hfilter, hname⟩ := hrow
  have htaken (r' : OpcodeRow) : (r' ∈ opcodeMap ∧ w &&& r'.mask = r'.matchWord) ↔ r' = r := by
    rw [← OpcodeRow.takes_iff, ← List.mem_singleton (b := r), ← hfilter, List.mem_filter]
  obtain ⟨hmem, hmatch⟩ := (htaken r).mpr rfl
  exact ⟨r, hmem, hmatch, hname.symm, fun r' hmem' hmatch' => (htaken r').mp ⟨hmem', hmatch'⟩⟩

end Sys2Proof.Machine
end

section
/-! PROOFS. What each command answers (spec/40_crc_commands.md R83 to R85), and runs of commands presented one after another
to a ready block. -/
namespace Sys2Proof.Machine

@[simp] theorem exec_nop (data : Byte) (s : State) : exec (.nop data) s = .next s := rfl

@[simp] theorem exec_init (data : Byte) (s : State) : exec (.init data) s = .next (s.setAcc Config.initValue) := rfl

@[simp] theorem exec_update (d : Byte) (s : State) :
    exec (.update d) s = .next (s.setAcc (upd s.cfg.poly s.acc d)) := rfl

/-- Settles O4: UPDATE's word is decoded to what it encodes; the answers of NOP and INIT do not name their operand. -/
theorem operandIsLowByte : Obligations.OperandIsLowByte := by
  unfold Obligations.OperandIsLowByte
  refine ⟨fun d => decode_encode (.update d), fun data s => ?_, fun data s => ?_, by decide, by decide⟩
  · rw [exec_nop, exec_nop]
  · rw [exec_init, exec_init]

/-- The next presented command runs whole, and the run goes on from its answer. -/
theorem run_present {s t : State} {i : Instr} {is : List Instr} {rest : List PortEvent} (k : Nat)
    (h : s.inputs = presentAll (i :: is) ++ rest)
    (ht : exec i (s.withInputs (presentAll is ++ rest)) = .next t) : run (k + 1) s = run k t := by
  refine run_succ k ?_
  rw [step_eq_exec h (PortEvent.present_accepted _), PortEvent.present_cmd, decode_encode]
  exact ht

/-- NOPs and UPDATEs fold the UPDATEs' bytes into ACC and change nothing else but the events taken. -/
theorem run_absorbsOnly (is : List Instr) (s : State) (rest : List PortEvent) (habs : absorbsOnly is = true)
    (h : s.inputs = presentAll is ++ rest) :
    run is.length s = .next ((s.setAcc (updAll s.cfg.poly s.acc (updateBytes is))).withInputs rest) := by
  induction is generalizing s with
  | nil =>
    obtain rfl : s.inputs = rest := h
    rfl
  | cons i is ih =>
    cases i with
    | nop data =>
      rw [List.length_cons, run_present _ h (exec_nop data _), ih _ habs rfl]
      rfl
    | update d =>
      rw [List.length_cons, run_present _ h (exec_update d _), ih _ habs rfl]
      rfl
    | init data => cases habs
    | illegal data => cases habs

theorem absorbsOnly_map_update (bs : List Byte) : absorbsOnly (bs.map Instr.update) = true := by
  induction bs with
  | nil => rfl
  | cons b bs ih => exact ih

theorem updateBytes_map_update (bs : List Byte) : updateBytes (bs.map Instr.update) = bs := by
  induction bs with
  | nil => rfl
  | cons b bs ih => exact congrArg (b :: ·) ih

/-- A block that runs `crc8`'s expansion ends with the CRC-8 of the bytes, from whatever state it starts (R67). -/
theorem run_crc8Commands (bs : List Byte) (s : State) (rest : List PortEvent)
    (h : s.inputs = presentAll (crc8Commands bs) ++ rest) :
    run (bs.length + 1) s = .next ((s.setAcc (crc8 s.cfg.poly bs)).withInputs rest) := by
  have hupdates := run_absorbsOnly (bs.map Instr.update)
    ((s.withInputs (presentAll (bs.map Instr.update) ++ rest)).setAcc Config.initValue) rest (absorbsOnly_map_update bs) rfl
  rw [List.length_map, updateBytes_map_update] at hupdates
  rw [run_present _ h (exec_init 0x00#8 _), hupdates]
  rfl

end Sys2Proof.Machine
end

section
/-! PROOFS. The bit-step bit by bit, its injectivity for odd POLY, and the residue of a sequence with its checksum
(spec/40_crc_commands.md R80, R91, R94). -/
namespace Sys2Proof.Machine

theorem getLsbD_bitstep (poly a : Byte) {i : Nat} (hi : i < 8) :
    (bitstep poly a).getLsbD i = ((decide (0 < i) && a.getLsbD (i - 1)) ^^ (a.getLsbD 7 && poly.getLsbD i)) := by
  have hshift : (a <<< 1).getLsbD i = (decide (0 < i) && a.getLsbD (i - 1)) := by
    rw [BitVec.getLsbD_shiftLeft, decide_eq_true hi, Bool.true_and]
    grind
  unfold bitstep
  split_ifs with htop
  · rw [BitVec.getLsbD_xor, hshift, htop, Bool.true_and]
  · rw [hshift, Bool.eq_false_of_not_eq_true htop, Bool.false_and, Bool.xor_false]

/-- Where POLY[0] = 1, bit 0 after a bit-step is the bit that was shifted out, so the step can be undone. -/
theorem bitstep_injective {poly : Byte} (hodd : poly.getLsbD 0 = true) : Function.Injective (bitstep poly) := by
  intro a b hab
  have hbit (i : Nat) (hi : i < 8) : ((decide (0 < i) && a.getLsbD (i - 1)) ^^ (a.getLsbD 7 && poly.getLsbD i)) =
      ((decide (0 < i) && b.getLsbD (i - 1)) ^^ (b.getLsbD 7 && poly.getLsbD i)) := by
    rw [← getLsbD_bitstep poly a hi, hab, getLsbD_bitstep poly b hi]
  have htop : a.getLsbD 7 = b.getLsbD 7 := by
    simpa only [lt_self_iff_false, decide_false, Bool.false_and, Bool.false_xor, hodd, Bool.and_true] using
      hbit 0 (by omega)
  refine BitVec.eq_of_getLsbD_eq fun i hi => ?_
  rcases Nat.lt_or_ge i 7 with hlow | hhigh
  · simpa only [htop, Nat.succ_pos, decide_true, Bool.true_and, Nat.add_sub_cancel, Bool.xor_left_inj] using
      hbit (i + 1) (by omega)
  · obtain rfl : i = 7 := by omega
    exact htop

theorem bitsteps_injective {poly : Byte} (hodd : poly.getLsbD 0 = true) (n : Nat) :
    Function.Injective (bitsteps poly n) := by
  induction n with
  | zero => exact Function.injective_id
  | succ n ih => exact ih.comp (bitstep_injective hodd)

theorem byteT_injective {poly : Byte} (hodd : poly.getLsbD 0 = true) : Function.Injective (byteT poly) :=
  bitsteps_injective hodd Config.shiftsPerByte

theorem bitstep_zero (poly : Byte) : bitstep poly 0x00#8 = 0x00#8 := by
  simp [bitstep]

theorem bitsteps_zero_byte (poly : Byte) (n : Nat) : bitsteps poly n 0x00#8 = 0x00#8 := by
  induction n with
  | zero => rfl
  | succ n ih => rw [bitsteps_succ, bitstep_zero, ih]

theorem byteT_zero (poly : Byte) : byteT poly 0x00#8 = 0x00#8 :=
  bitsteps_zero_byte poly Config.shiftsPerByte

/-- The last byte of a sequence is absorbed last. -/
theorem crc8_append_singleton (poly : Byte) (xs : List Byte) (c : Byte) :
    crc8 poly (xs ++ [c]) = byteT poly (crc8 poly xs ^^^ c) :=
  List.foldl_concat ..

/-- A sequence followed by its own CRC-8 leaves 0 (R91). -/
theorem crc8_append_crc8 (poly : Byte) (xs : List Byte) : crc8 poly (xs ++ [crc8 poly xs]) = 0x00#8 := by
  rw [crc8_append_singleton, BitVec.xor_self, byteT_zero]

/-- Where POLY[0] = 1, no other last byte leaves 0 (R91). -/
theorem eq_crc8_of_residue_zero {poly : Byte} (hodd : poly.getLsbD 0 = true) {xs : List Byte} {c : Byte}
    (hres : crc8 poly (xs ++ [c]) = 0x00#8) : c = crc8 poly xs := by
  rw [crc8_append_singleton, ← byteT_zero poly] at hres
  exact (BitVec.xor_eq_zero_iff.mp (byteT_injective hodd hres)).symm

end Sys2Proof.Machine
end

section
/-! PROOFS. The pseudo-instructions: the words they assemble to, and what they leave in ACC (spec/30_encoding.md R66, R67). -/
namespace Sys2Proof.Machine

theorem assemble_of_wellFormed {l : AsmLine} (h : l.wellFormed = true) :
    assemble l = .ok ((lineCommands l).map encode) :=
  if_pos h

theorem imm8InRange_natCast {n : Nat} (h : n ≤ 255) : imm8InRange n = true := by
  simp only [imm8InRange, Bool.and_eq_true, decide_eq_true_eq]
  omega

theorem all_imm8InRange_natCast {ns : List Nat} (h : ∀ n ∈ ns, n ≤ 255) :
    (ns.map Int.ofNat).all imm8InRange = true := by
  rw [List.all_map, List.all_eq_true]
  exact fun n hn => imm8InRange_natCast (h n hn)

/-- The word of an UPDATE whose operand is written as a number in 0..255 (R66). -/
theorem encode_update_byteOf {n : Nat} (h : n ≤ 255) :
    encode (.update (byteOf n)) = 0x200#10 ||| BitVec.ofNat 10 n := by
  have hwide : (byteOf n).setWidth 10 = BitVec.ofNat 10 n := by
    refine BitVec.eq_of_toNat_eq ?_
    simp only [byteOf, BitVec.ofInt_natCast, BitVec.toNat_setWidth, BitVec.toNat_ofNat]
    omega
  exact congrArg (0x200#10 ||| ·) hwide

/-- The words of `crc8`'s expansion, its bytes written as numbers in 0..255. -/
theorem map_encode_crc8Commands {ns : List Nat} (h : ∀ n ∈ ns, n ≤ 255) :
    (crc8Commands (ns.map fun n : Nat => byteOf n)).map encode =
      0x100#10 :: ns.map fun n => 0x200#10 ||| BitVec.ofNat 10 n := by
  have hword (n : Nat) (hn : n ∈ ns) : encode (.update (byteOf n)) = 0x200#10 ||| BitVec.ofNat 10 n :=
    encode_update_byteOf (h n hn)
  rw [crc8Commands, List.map_cons, List.map_map, List.map_map]
  exact congrArg (0x100#10 :: ·) (List.map_congr_left hword)

theorem assemble_crc8 {ns : List Nat} (h : ∀ n ∈ ns, n ≤ 255) :
    assemble (.crc8 (ns.map Int.ofNat)) = .ok (0x100#10 :: ns.map fun n => 0x200#10 ||| BitVec.ofNat 10 n) := by
  have hwf : (AsmLine.crc8 (ns.map Int.ofNat)).wellFormed = true := all_imm8InRange_natCast h
  rw [assemble_of_wellFormed hwf, ← map_encode_crc8Commands h, lineCommands, List.map_map]
  rfl

theorem assemble_frameCrc {c lo hi : Nat} (hc : c ≤ 255) (hlo : lo ≤ 255) (hhi : hi ≤ 255) :
    assemble (.frameCrc c lo hi) = .ok [0x100#10, 0x200#10 ||| BitVec.ofNat 10 c, 0x200#10 ||| BitVec.ofNat 10 lo,
      0x200#10 ||| BitVec.ofNat 10 hi] := by
  have hrange : ∀ n ∈ [c, lo, hi], n ≤ 255 := by simp [hc, hlo, hhi]
  have hwf : (AsmLine.frameCrc c lo hi).wellFormed = true := by
    simp [AsmLine.wellFormed, imm8InRange_natCast, hc, hlo, hhi]
  rw [assemble_of_wellFormed hwf]
  exact congrArg Except.ok (map_encode_crc8Commands hrange)

theorem assemble_check {ns : List Nat} {c : Nat} (h : ∀ n ∈ ns, n ≤ 255) (hc : c ≤ 255) :
    assemble (.check (ns.map Int.ofNat) c) =
      .ok (0x100#10 :: (ns ++ [c]).map fun n => 0x200#10 ||| BitVec.ofNat 10 n) := by
  have hrange : ∀ n ∈ ns ++ [c], n ≤ 255 := by
    simpa [or_imp, forall_and, hc] using h
  have hwf : (AsmLine.check (ns.map Int.ofNat) c).wellFormed = true :=
    Bool.and_eq_true_iff.mpr ⟨all_imm8InRange_natCast h, imm8InRange_natCast hc⟩
  rw [assemble_of_wellFormed hwf, ← map_encode_crc8Commands hrange, lineCommands, checkCommands, List.map_map,
    List.map_append]
  rfl

/-- Settles O7: the expansions are those of the definitions; their words come from UPDATE's, their effect from the run of
`crc8`'s expansion, and `check`'s from the residue of a sequence followed by a byte. -/
theorem pseudoInstructionsExpandAndRun : Obligations.PseudoInstructionsExpandAndRun := by
  unfold Obligations.PseudoInstructionsExpandAndRun
  refine ⟨fun _ => rfl, fun _ _ _ => rfl, fun _ _ => rfl, fun _ => assemble_crc8, fun _ _ _ => assemble_frameCrc,
    fun _ _ => assemble_check, fun s bs rest h => run_crc8Commands bs s rest h, fun s bs c rest h => ?_⟩
  have hrun := run_crc8Commands (bs ++ [c]) s rest h
  rw [List.length_append] at hrun
  refine ⟨_, hrun, fun hc => ?_, fun hodd hout => eq_crc8_of_residue_zero hodd hout⟩
  subst hc
  exact crc8_append_crc8 s.cfg.poly bs

end Sys2Proof.Machine
end

section
/-! PROOFS. The rows of the opcode map as the decoder reads them, and what the words of NOP's and INIT's rows do
(spec/30_encoding.md R63; spec/40_crc_commands.md R83, R84). -/
namespace Sys2Proof.Machine

/-- The mask of the opcode map keeps the field `op`. -/
theorem opField_and_mask (w : CmdWord) : opField (w &&& 0x300#10) = opField w := by
  have hmask : (0x300#10).extractLsb' 8 2 = BitVec.allOnes 2 := by decide
  rw [opField, BitVec.extractLsb'_and, hmask, BitVec.and_allOnes, opField]

theorem dataField_eq_setWidth (w : CmdWord) : dataField w = w.setWidth 8 :=
  (BitVec.setWidth_eq_extractLsb' (by omega)).symm

theorem decode_of_nopRow {w : CmdWord} (h : w &&& 0x300#10 = 0x000#10) : decode w = .nop (dataField w) := by
  have hop : opField w = 0b00#2 := by rw [← opField_and_mask, h]; rfl
  rw [decode, hop]
  rfl

theorem decode_of_initRow {w : CmdWord} (h : w &&& 0x300#10 = 0x100#10) : decode w = .init (dataField w) := by
  have hop : opField w = 0b01#2 := by rw [← opField_and_mask, h]; rfl
  rw [decode, hop]
  rfl

theorem decode_of_updateRow {w : CmdWord} (h : w &&& 0x300#10 = 0x200#10) : decode w = .update (dataField w) := by
  have hop : opField w = 0b10#2 := by rw [← opField_and_mask, h]; rfl
  rw [decode, hop]
  rfl

/-- Settles O8: the row decodes to NOP, which answers its own state; with a NOP between them or not, two UPDATEs absorb the
same bytes. -/
theorem nopChangesNothing : Obligations.NopChangesNothing := by
  unfold Obligations.NopChangesNothing
  refine ⟨fun w hw s => ?_, fun s d e data rest h => ?_⟩
  · rw [decode_of_nopRow hw, exec_nop]
  · have hwith := run_absorbsOnly [.update d, .nop data, .update e] s rest rfl h
    have hwithout := run_absorbsOnly [.update d, .update e]
      (s.withInputs (presentAll [.update d, .update e] ++ rest)) rest rfl rfl
    exact hwith.trans hwithout.symm

/-- Settles O9: the row decodes to INIT, whose answer writes ACC alone and does not read it. -/
theorem initClearsAcc : Obligations.InitClearsAcc := by
  unfold Obligations.InitClearsAcc
  intro w hw s
  rw [decode_of_initRow hw, exec_init, exec_init]
  exact ⟨rfl, rfl⟩

end Sys2Proof.Machine
end

section
/-! PROOFS. The bit-step, the byte table and CRC-8 as functions: folds and iterates, linearity over GF(2), leading zeros, the
residue and the byte table (spec/40_crc_commands.md R80 to R82, R87, R89 to R91, R94). -/
namespace Sys2Proof.Machine

theorem bitstep_of_top_clear {poly a : Byte} (h : a.getLsbD 7 = false) : bitstep poly a = a <<< 1 :=
  if_neg (by rw [h]; exact Bool.false_ne_true)

/-- Settles O15: the bits of a bit-step are those of `getLsbD_bitstep`. -/
theorem bitstepShiftsAndFeedsBack : Obligations.BitstepShiftsAndFeedsBack := by
  unfold Obligations.BitstepShiftsAndFeedsBack
  exact ⟨fun poly a _ hi => getLsbD_bitstep poly a hi, fun _ _ h => bitstep_of_top_clear h,
    by decide, by decide, by decide, by decide⟩

theorem bitsteps_eq_iterate (poly : Byte) (n : Nat) (v : Byte) : bitsteps poly n v = (bitstep poly)^[n] v := by
  induction n generalizing v with
  | zero => rfl
  | succ n ih => exact ih (bitstep poly v)

theorem byteT_eq_iterate (poly v : Byte) : byteT poly v = (bitstep poly)^[8] v :=
  bitsteps_eq_iterate poly 8 v

/-- Settles O16: the eight bit-steps of the byte table are an iterate, and CRC-8 is a fold by definition. -/
theorem updAndCrcAreFolds : Obligations.UpdAndCrcAreFolds := by
  unfold Obligations.UpdAndCrcAreFolds
  refine ⟨fun poly a d => ?_, fun poly xs d => ⟨rfl, rfl, ?_⟩⟩
  · rw [upd_eq_byteT, byteT_eq_iterate]
  · rw [crc8_append_singleton, upd_eq_byteT]

/-- Settles O18: the fold over no byte is the initial value, which is also what INIT writes. -/
theorem emptySequenceGivesZero : Obligations.EmptySequenceGivesZero := by
  unfold Obligations.EmptySequenceGivesZero
  exact ⟨fun _ => rfl, fun s data => ⟨_, exec_init data s, rfl⟩⟩

/-! ### Linearity (R89) -/

theorem bitstep_xor (poly a b : Byte) : bitstep poly (a ^^^ b) = bitstep poly a ^^^ bitstep poly b := by
  refine BitVec.eq_of_getLsbD_eq fun i hi => ?_
  simp only [getLsbD_bitstep _ _ hi, BitVec.getLsbD_xor, Bool.and_xor_distrib_left, Bool.and_xor_distrib_right,
    Bool.xor_assoc, Bool.xor_left_comm]

theorem bitsteps_xor (poly : Byte) (n : Nat) (a b : Byte) :
    bitsteps poly n (a ^^^ b) = bitsteps poly n a ^^^ bitsteps poly n b := by
  induction n generalizing a b with
  | zero => rfl
  | succ n ih => rw [bitsteps_succ, bitstep_xor, ih, bitsteps_succ, bitsteps_succ]

theorem byteT_xor (poly a b : Byte) : byteT poly (a ^^^ b) = byteT poly a ^^^ byteT poly b :=
  bitsteps_xor poly Config.shiftsPerByte a b

theorem upd_xor (poly a b d e : Byte) : upd poly (a ^^^ b) (d ^^^ e) = upd poly a d ^^^ upd poly b e := by
  have hswap : a ^^^ b ^^^ (d ^^^ e) = a ^^^ d ^^^ (b ^^^ e) := by ac_rfl
  rw [upd_eq_byteT, hswap, byteT_xor, ← upd_eq_byteT, ← upd_eq_byteT]

theorem updAll_xorBytes (poly : Byte) {xs ys : List Byte} (hlen : xs.length = ys.length) (a b : Byte) :
    updAll poly (a ^^^ b) (xorBytes xs ys) = updAll poly a xs ^^^ updAll poly b ys := by
  induction xs generalizing ys a b with
  | nil =>
    obtain rfl : ys = [] := List.length_eq_zero_iff.mp hlen.symm
    rfl
  | cons x xs ih =>
    obtain ⟨y, ys, rfl⟩ := List.exists_cons_of_length_eq_add_one hlen.symm
    have hfirst : xorBytes (x :: xs) (y :: ys) = (x ^^^ y) :: xorBytes xs ys := rfl
    rw [hfirst, updAll_cons, upd_xor, ih (Nat.succ.inj hlen), updAll_cons, updAll_cons]

/-- Settles O19: XOR passes through one bit-step, so through eight, and so through the fold of two sequences. -/
theorem crcIsLinear : Obligations.CrcIsLinear := by
  unfold Obligations.CrcIsLinear
  exact ⟨bitstep_xor, upd_xor, fun poly _ _ hlen => updAll_xorBytes poly hlen Config.initValue Config.initValue⟩

/-! ### Leading zeros (R90) -/

theorem crc8_zero_cons (poly : Byte) (xs : List Byte) : crc8 poly (0x00#8 :: xs) = crc8 poly xs := by
  have hzero : upd poly Config.initValue 0x00#8 = Config.initValue := byteT_zero poly
  rw [crc8, updAll_cons, hzero, crc8]

theorem crc8_replicate_zero_append (poly : Byte) (xs : List Byte) (n : Nat) :
    crc8 poly (List.replicate n 0x00#8 ++ xs) = crc8 poly xs := by
  induction n with
  | zero => rfl
  | succ n ih => rw [List.replicate_succ, List.cons_append, crc8_zero_cons, ih]

/-- Settles O20: a zero byte leaves the initial accumulator as it is. -/
theorem leadingZerosChangeNothing : Obligations.LeadingZerosChangeNothing := by
  unfold Obligations.LeadingZerosChangeNothing
  refine ⟨crc8_replicate_zero_append, crc8_zero_cons, fun poly n => ?_⟩
  have hall := crc8_replicate_zero_append poly [] n
  rwa [List.append_nil] at hall

/-! ### The byte table (R94) and the residue (R91) -/

/-- Bit 0 of a bit-step is POLY's, where it is set at all: no even POLY reaches an odd byte. -/
theorem getLsbD_zero_of_bitstep {poly v : Byte} (h : (bitstep poly v).getLsbD 0 = true) : poly.getLsbD 0 = true := by
  rw [getLsbD_bitstep poly v (by omega), decide_eq_false (lt_irrefl 0), Bool.false_and, Bool.false_xor] at h
  exact (Bool.and_eq_true_iff.mp h).2

/-- On 256 bytes one-to-one is onto, and the byte 0x01 is reached for odd POLY alone. -/
theorem byteT_injective_iff (poly : Byte) : Function.Injective (byteT poly) ↔ poly.getLsbD 0 = true := by
  refine ⟨fun hinj => ?_, byteT_injective⟩
  obtain ⟨v, hv⟩ := Finite.surjective_of_injective hinj 0x01#8
  have hlast : bitstep poly (bitsteps poly 7 v) = 0x01#8 := (bitsteps_succ_last poly v 7).symm.trans hv
  exact getLsbD_zero_of_bitstep (by rw [hlast]; decide)

/-- A linear function that takes only 0 to 0 is one-to-one. -/
theorem byteT_injective_of_kernel {poly : Byte} (h : ∀ c, byteT poly c = 0x00#8 → c = 0x00#8) :
    Function.Injective (byteT poly) := by
  intro a b hab
  refine BitVec.xor_eq_zero_iff.mp (h (a ^^^ b) ?_)
  rw [byteT_xor, hab, BitVec.xor_self]

/-- Settles O21: the residue is `T` of the XOR of the two checksums; after the empty sequence that is `T` of the last byte, so
the converse says that `T` takes only 0 to 0. -/
theorem residueProperty : Obligations.ResidueProperty := by
  unfold Obligations.ResidueProperty
  refine ⟨crc8_append_crc8, fun poly => ⟨fun hconv => ?_, fun hodd xs c => eq_crc8_of_residue_zero hodd⟩⟩
  refine (byteT_injective_iff poly).mp (byteT_injective_of_kernel fun c hc => hconv [] c ?_)
  rw [crc8_append_singleton]
  exact (congrArg (byteT poly) (BitVec.zero_xor (x := c))).trans hc

/-- Seven bit-steps bring the bit of 0x01 to the top, and the eighth feeds POLY back in. -/
theorem byteT_one (poly : Byte) : byteT poly 0x01#8 = poly := by
  have hshifts : bitsteps poly 7 0x01#8 = 0x80#8 := by simp [bitstep]
  calc byteT poly 0x01#8 = bitstep poly (bitsteps poly 7 0x01#8) := bitsteps_succ_last poly 0x01#8 7
    _ = bitstep poly 0x80#8 := congrArg (bitstep poly) hshifts
    _ = poly := by simp [bitstep]

/-- The XOR of the single bits among the low `n` of a byte holds just those bits. -/
theorem getLsbD_foldl_twoPow (v : Byte) (n j : Nat) :
    (((List.range n).filter fun i => v.getLsbD i).foldl (fun x i => x ^^^ BitVec.twoPow 8 i) 0x00#8).getLsbD j =
      (decide (j < n) && v.getLsbD j) := by
  induction n with
  | zero => simp
  | succ n ih =>
    rw [List.range_succ, List.filter_append, List.foldl_append]
    rcases hn : v.getLsbD n with _ | _
    · rw [List.filter_cons_of_neg (by simp [hn]), List.filter_nil, List.foldl_nil, ih]
      grind
    · rw [List.filter_cons_of_pos hn, List.filter_nil, List.foldl_cons, List.foldl_nil, BitVec.getLsbD_xor, ih,
        BitVec.getLsbD_twoPow, decide_eq_true (BitVec.lt_of_getLsbD hn), Bool.true_and]
      grind

/-- `T` of a byte is the XOR of `T` of its single bits. -/
theorem byteT_eq_foldl_twoPow (poly v : Byte) :
    byteT poly v = ((List.range 8).filter fun i => v.getLsbD i).foldl
      (fun x i => x ^^^ byteT poly (BitVec.twoPow 8 i)) 0x00#8 := by
  have hbits : ((List.range 8).filter fun i => v.getLsbD i).foldl (fun x i => x ^^^ BitVec.twoPow 8 i) 0x00#8 = v := by
    refine BitVec.eq_of_getLsbD_eq fun j hj => ?_
    rw [getLsbD_foldl_twoPow v 8 j, decide_eq_true hj, Bool.true_and]
  have hhom := List.foldl_hom (l := (List.range 8).filter fun i => v.getLsbD i) (init := 0x00#8) (byteT poly)
    (g₁ := fun x i => x ^^^ BitVec.twoPow 8 i) (g₂ := fun x i => x ^^^ byteT poly (BitVec.twoPow 8 i))
    fun x i => (byteT_xor poly x (BitVec.twoPow 8 i)).symm
  rw [byteT_zero, hbits] at hhom
  exact hhom.symm

theorem updTable_byteTable (poly a d : Byte) : updTable (byteTable poly) a d = upd poly a d :=
  Vector.get_ofFn _ _

/-- Settles O23: linearity gives `T` from its single bits, and POLY[0] decides whether it is one-to-one. -/
theorem byteTableLaws : Obligations.ByteTableLaws := by
  unfold Obligations.ByteTableLaws
  exact fun poly => ⟨byteT_eq_iterate poly, upd_eq_byteT poly, byteT_xor poly, byteT_zero poly, byteT_one poly,
    byteT_eq_foldl_twoPow poly, byteT_injective_iff poly, updTable_byteTable poly⟩

end Sys2Proof.Machine
end

section
/-! PROOFS. The bit-serial form of UPDATE (spec/40_crc_commands.md R86). -/
namespace Sys2Proof.Machine

/-- Where the accumulator still holds the data bits `y` that a byte-wise UPDATE would have cancelled, feeding in the top one
of them makes the bit-step of the rest. -/
theorem serialBit_xor_top (poly x y : Byte) :
    serialBit poly (x ^^^ y) (y.getLsbD 7) = bitstep poly x ^^^ (y <<< 1) := by
  have hfeed : ((x ^^^ y).getLsbD 7 ^^ y.getLsbD 7) = x.getLsbD 7 := by
    rw [BitVec.getLsbD_xor, Bool.xor_assoc, Bool.xor_self, Bool.xor_false]
  rw [serialBit, hfeed, bitstep, BitVec.shiftLeft_xor_distrib]
  split_ifs
  · ac_rfl
  · rfl

/-- After `n` bits of the data, the accumulator is that of `n` bit-steps with the data bits still to come XORed in. -/
theorem foldl_serialBit (poly x d : Byte) (n : Nat) :
    ((List.range n).map fun i => (d <<< i).getLsbD 7).foldl (serialBit poly) (x ^^^ d) = bitsteps poly n x ^^^ (d <<< n) := by
  induction n with
  | zero => rw [BitVec.shiftLeft_zero]; rfl
  | succ n ih =>
    rw [List.range_succ, List.map_append, List.foldl_append, ih, List.map_singleton, List.foldl_cons, List.foldl_nil,
      serialBit_xor_top, bitsteps_succ_last, BitVec.shiftLeft_add]

theorem msbFirst_eq_map_range (d : Byte) : msbFirst d = (List.range 8).map fun i => (d <<< i).getLsbD 7 := by
  simp [msbFirst, List.range_succ]

theorem updSerial_eq_upd (poly a d : Byte) : updSerial poly a d = upd poly a d := by
  have hcancel : a ^^^ d ^^^ d = a := by rw [BitVec.xor_assoc, BitVec.xor_self, BitVec.xor_zero]
  have hfold := foldl_serialBit poly (a ^^^ d) d 8
  rw [hcancel, BitVec.shiftLeft_eq_zero (le_refl 8), BitVec.xor_zero] at hfold
  rw [updSerial, msbFirst_eq_map_range, hfold]
  rfl

/-- Settles O17: the fold written out is the bit-serial UPDATE. -/
theorem bitSerialFormGivesSameAcc : Obligations.BitSerialFormGivesSameAcc := by
  unfold Obligations.BitSerialFormGivesSameAcc
  exact fun poly a d => ⟨updSerial_eq_upd poly a d, updSerial_eq_upd poly a d⟩

end Sys2Proof.Machine
end

section
/-! PROOFS. A wider accumulator that is never masked: taking its low byte commutes with every bit-step, and so with the whole
fold (spec/40_crc_commands.md R95). -/
namespace Sys2Proof.Machine

theorem setWidth_wideStep {n : Nat} (hn : 8 ≤ n) (poly : Byte) (v : BitVec n) :
    (wideStep poly v).setWidth 8 = bitstep poly (v.setWidth 8) := by
  have htop : (v.setWidth 8).getLsbD 7 = v.getLsbD 7 := by simp
  rw [wideStep, bitstep, htop]
  split_ifs
  · rw [BitVec.setWidth_xor, BitVec.setWidth_shiftLeft_of_le hn, BitVec.setWidth_setWidth_of_le poly hn, BitVec.setWidth_eq]
  · exact BitVec.setWidth_shiftLeft_of_le hn

theorem setWidth_wideSteps {n : Nat} (hn : 8 ≤ n) (poly : Byte) (k : Nat) (v : BitVec n) :
    (wideSteps poly k v).setWidth 8 = bitsteps poly k (v.setWidth 8) := by
  induction k generalizing v with
  | zero => rfl
  | succ k ih => rw [wideSteps, ih, setWidth_wideStep hn, bitsteps_succ]

theorem setWidth_wideUpd {n : Nat} (hn : 8 ≤ n) (poly : Byte) (v : BitVec n) (d : Byte) :
    (wideUpd poly v d).setWidth 8 = upd poly (v.setWidth 8) d := by
  rw [wideUpd, setWidth_wideSteps hn, BitVec.setWidth_xor, BitVec.setWidth_setWidth_of_le d hn, BitVec.setWidth_eq]
  rfl

theorem ofNat_shiftLeft_one (v : Nat) : BitVec.ofNat 8 (v <<< 1) = BitVec.ofNat 8 v <<< 1 := by
  refine BitVec.eq_of_toNat_eq ?_
  simp only [BitVec.toNat_ofNat, BitVec.toNat_shiftLeft, Nat.shiftLeft_eq]
  omega

theorem ofNat_unboundedStep (poly : Byte) (v : Nat) :
    BitVec.ofNat 8 (unboundedStep poly v) = bitstep poly (BitVec.ofNat 8 v) := by
  have htop : (BitVec.ofNat 8 v).getLsbD 7 = v.testBit 7 := BitVec.getLsbD_ofNat 8 v 7
  rw [unboundedStep, bitstep, htop]
  split_ifs
  · rw [BitVec.ofNat_xor, ofNat_shiftLeft_one, BitVec.ofNat_toNat, BitVec.setWidth_eq]
  · exact ofNat_shiftLeft_one v

theorem ofNat_unboundedSteps (poly : Byte) (k v : Nat) :
    BitVec.ofNat 8 (unboundedSteps poly k v) = bitsteps poly k (BitVec.ofNat 8 v) := by
  induction k generalizing v with
  | zero => rfl
  | succ k ih => rw [unboundedSteps, ih, ofNat_unboundedStep, bitsteps_succ]

theorem ofNat_unboundedUpd (poly : Byte) (v : Nat) (d : Byte) :
    BitVec.ofNat 8 (unboundedUpd poly v d) = upd poly (BitVec.ofNat 8 v) d := by
  rw [unboundedUpd, ofNat_unboundedSteps, BitVec.ofNat_xor, BitVec.ofNat_toNat, BitVec.setWidth_eq]
  rfl

/-- Settles O24: the low byte of the wider fold is the fold of the low byte. -/
theorem widerAccumulatorSameLowByte : Obligations.WiderAccumulatorSameLowByte := by
  unfold Obligations.WiderAccumulatorSameLowByte
  refine ⟨fun n poly xs hn => ?_, fun poly xs => ?_⟩
  · have hzero : (0 : BitVec n).setWidth 8 = Config.initValue := BitVec.setWidth_zero 8 n
    rw [← List.foldl_hom (BitVec.setWidth 8) (g₂ := upd poly) fun v d => (setWidth_wideUpd hn poly v d).symm, hzero]
    rfl
  · rw [← List.foldl_hom (BitVec.ofNat 8) (g₂ := upd poly) fun v d => (ofNat_unboundedUpd poly v d).symm]
    rfl

end Sys2Proof.Machine
end

section
/-! PROOFS. UPDATE on a block: its corner cases, the polynomial 0x00, and POLY read back by the byte 0x01
(spec/40_crc_commands.md R85, R92, R98). -/
namespace Sys2Proof.Machine

theorem bitstep_poly_zero (a : Byte) : bitstep 0x00#8 a = a <<< 1 := by
  rw [bitstep, BitVec.xor_zero, ite_self]

theorem bitsteps_poly_zero (n : Nat) (a : Byte) : bitsteps 0x00#8 n a = a <<< n := by
  induction n with
  | zero => exact (BitVec.shiftLeft_zero a).symm
  | succ n ih => rw [bitsteps_succ_last, ih, bitstep_poly_zero, BitVec.shiftLeft_add]

theorem byteT_poly_zero (v : Byte) : byteT 0x00#8 v = 0x00#8 :=
  (bitsteps_poly_zero 8 v).trans (BitVec.shiftLeft_eq_zero (le_refl 8))

theorem crc8_poly_zero (xs : List Byte) : crc8 0x00#8 xs = 0x00#8 := by
  induction xs using List.reverseRecOn with
  | nil => rfl
  | append_singleton xs d _ => rw [crc8_append_singleton, byteT_poly_zero]

theorem exec_update_poly_zero (s : State) (d : Byte) (h : s.cfg.poly = 0x00#8) :
    exec (.update d) s = .next (s.setAcc 0x00#8) := by
  rw [exec_update, h, upd_eq_byteT, byteT_poly_zero]

/-- Settles O27: with POLY 0x00 the eight bit-steps of a byte are eight shifts, which leave nothing of it. -/
theorem zeroPolynomialGivesZero : Obligations.ZeroPolynomialGivesZero := by
  unfold Obligations.ZeroPolynomialGivesZero
  exact ⟨bitstep_poly_zero, byteT_poly_zero, crc8_poly_zero, exec_update_poly_zero⟩

theorem crc8_one (poly : Byte) : crc8 poly [0x01#8] = poly := byteT_one poly

/-- Settles O22: `T(0x01) = POLY`, and the two commands are `crc8`'s expansion of the one byte. -/
theorem oneByteReadsBackPoly : Obligations.OneByteReadsBackPoly := by
  unfold Obligations.OneByteReadsBackPoly
  exact ⟨crc8_one, fun s rest h => ⟨_, run_crc8Commands [0x01#8] s rest h, crc8_one s.cfg.poly⟩⟩

/-- Settles O10: UPDATE's answer is `T` of ACC XOR the byte, and `T` gives the corner cases; POLY 0x07 and the byte 0x01, absorbed
twice from 0x00, show that UPDATE is not idempotent. -/
theorem updateAbsorbsByte : Obligations.UpdateAbsorbsByte := by
  unfold Obligations.UpdateAbsorbsByte
  refine ⟨fun w hw => ?_, fun s => ?_, fun s hacc => ?_, fun s d hone => ?_, exec_update_poly_zero, ?_,
    fun s hpoly hacc => ?_, by decide⟩
  · rw [decode_of_updateRow hw, dataField_eq_setWidth]
    refine ⟨rfl, fun s => ⟨?_, rfl⟩⟩
    rw [exec_update, upd_eq_byteT, byteT_eq_iterate]
    rfl
  · rw [exec_update, upd_eq_byteT, BitVec.xor_self, byteT_zero]
    rfl
  · rw [exec_update, hacc, upd_eq_byteT, BitVec.xor_self, byteT_zero]
    rfl
  · rw [exec_update, upd_eq_byteT, hone, byteT_one]
    rfl
  · have hfirst : upd 0x07#8 0x00#8 0x01#8 = 0x07#8 := by decide
    have hsecond : upd 0x07#8 0x07#8 0x01#8 ≠ 0x07#8 := by decide
    have hexec := exec_update 0x01#8 (State.launch { poly := 0x07#8 })
    rw [State.launch, hfirst] at hexec
    exact ⟨_, _, _, _, hexec, exec_update _ _, hsecond⟩
  · have hword : decode 0x280#10 = .update 0x80#8 := by decide
    have hvalue : upd 0x07#8 0x00#8 0x80#8 = 0x89#8 := by decide
    rw [hword, exec_update, hpoly, hacc, hvalue]
    rfl

end Sys2Proof.Machine
end

section
/-! PROOFS. ACC after a sequence of commands on a block (spec/40_crc_commands.md R96, R97). -/
namespace Sys2Proof.Machine

theorem step_answers_next (s : State) : ∃ t, step s = .next t := by
  unfold step
  split
  · exact ⟨_, rfl⟩
  · exact ⟨_, rfl⟩
  · exact ⟨_, rfl⟩
  · exact exec_answers_next _ _

/-- A run goes on from where its first part ends. -/
theorem run_add {s t : State} {m : Nat} (n : Nat) (h : run m s = .next t) : run (m + n) s = run n t := by
  induction m generalizing s with
  | zero =>
    obtain rfl : s = t := Host.Outcome.next.inj h
    rw [Nat.zero_add]
  | succ m ih =>
    obtain ⟨u, hu⟩ := step_answers_next s
    rw [run_succ m hu] at h
    rw [Nat.succ_add, run_succ _ hu, ih h]

theorem presentAll_append (xs ys : List Instr) : presentAll (xs ++ ys) = presentAll xs ++ presentAll ys :=
  List.map_append

/-- Commands without a reserved one change ACC at most, and take their events. -/
theorem run_noReserved (is : List Instr) (s : State) (rest : List PortEvent) (hres : noReserved is = true)
    (h : s.inputs = presentAll is ++ rest) : ∃ a, run is.length s = .next ((s.setAcc a).withInputs rest) := by
  induction is generalizing s with
  | nil =>
    obtain rfl : s.inputs = rest := h
    exact ⟨s.acc, rfl⟩
  | cons i is ih =>
    cases i with
    | nop data =>
      rw [List.length_cons, run_present _ h (exec_nop data _)]
      exact ih _ hres rfl
    | init data =>
      rw [List.length_cons, run_present _ h (exec_init data _)]
      exact ih _ hres rfl
    | update d =>
      rw [List.length_cons, run_present _ h (exec_update d _)]
      exact ih _ hres rfl
    | illegal data => cases hres

/-- INIT, then NOPs and UPDATEs: ACC is the CRC-8 of the UPDATEs' bytes, whatever it was. -/
theorem run_init_absorbsOnly (data : Byte) (is : List Instr) (s : State) (rest : List PortEvent)
    (habs : absorbsOnly is = true) (h : s.inputs = presentAll (.init data :: is) ++ rest) :
    run (is.length + 1) s = .next ((s.setAcc (crc8 s.cfg.poly (updateBytes is))).withInputs rest) := by
  rw [run_present _ h (exec_init data _), run_absorbsOnly is _ rest habs rfl]
  rfl

theorem crc8_append (poly : Byte) (xs ys : List Byte) : crc8 poly (xs ++ ys) = updAll poly (crc8 poly xs) ys :=
  List.foldl_append

/-- Settles O25: the first stretch ends with its CRC-8 in ACC, and the second folds on from there. -/
theorem computationContinues : Obligations.ComputationContinues := by
  unfold Obligations.ComputationContinues
  refine ⟨crc8_append, fun s data first second rest hfirst hsecond h => ?_⟩
  rw [presentAll_append, List.append_assoc] at h
  refine ⟨_, _, run_init_absorbsOnly data first s _ hfirst h, rfl, run_absorbsOnly second _ rest hsecond rfl, rfl, ?_⟩
  exact (crc8_append s.cfg.poly (updateBytes first) (updateBytes second)).symm

/-- Settles O26: whatever ACC the commands before the INIT leave, the run from the INIT on does not read it. -/
theorem accAfterCommandSequence : Obligations.AccAfterCommandSequence := by
  unfold Obligations.AccAfterCommandSequence
  refine ⟨fun s before after data rest hbefore hafter h => ?_, fun s is rest habs h => run_absorbsOnly is s rest habs h⟩
  rw [presentAll_append, List.append_assoc] at h
  obtain ⟨a, hrun⟩ := run_noReserved before s _ hbefore h
  rw [Nat.add_assoc, Nat.add_comm 1, run_add _ hrun, run_init_absorbsOnly data after _ rest hafter rfl]
  rfl

end Sys2Proof.Machine
end

section
/-! PROOFS. Two frame bytes as a 16-bit value (spec/20_memory.md R44; spec/41_host_frames.md R114). -/
namespace Sys2Proof.Machine

/-- The value's 16 bits are the high byte's, then the low byte's. -/
theorem composeValue_eq_append (low high : Byte) : composeValue low high = high ++ low :=
  BitVec.setWidth_append_eq_shiftLeft_setWidth_or.symm.trans (BitVec.setWidth_eq (high ++ low))

theorem toNat_composeValue (low high : Byte) : (composeValue low high).toNat = 256 * high.toNat + low.toNat := by
  rw [composeValue_eq_append, BitVec.toNat_append, ← Nat.shiftLeft_add_eq_or_of_lt low.isLt, Nat.shiftLeft_eq,
    Nat.mul_comm]

@[simp] theorem lowByte_composeValue (low high : Byte) : lowByte (composeValue low high) = low := by
  rw [composeValue_eq_append]
  exact BitVec.extractLsb'_append_eq_right

@[simp] theorem highByte_composeValue (low high : Byte) : highByte (composeValue low high) = high := by
  rw [composeValue_eq_append]
  exact BitVec.extractLsb'_append_eq_left

@[simp] theorem composeValue_lowByte_highByte (v : Half) : composeValue (lowByte v) (highByte v) = v := by
  rw [composeValue_eq_append]
  exact (BitVec.extractLsb'_append_extractLsb'_eq_extractLsb' rfl).trans BitVec.extractLsb'_eq_self

/-- Settles O56: a response's value is its two value bytes one beside the other, so each is cut out again whole. -/
theorem responseValueRoundTrip : Obligations.ResponseValueRoundTrip := by
  unfold Obligations.ResponseValueRoundTrip
  exact ⟨fun r => ⟨rfl, toNat_composeValue r.valueLow r.valueHigh, lowByte_composeValue r.valueLow r.valueHigh,
    highByte_composeValue r.valueLow r.valueHigh⟩, composeValue_lowByte_highByte⟩

/-- Settles O58: the example's bytes compose to 2515, and the formula takes that to 14.35 exactly. -/
theorem temperatureTransform : Obligations.TemperatureTransform := by
  unfold Obligations.TemperatureTransform
  have hraw : (composeValue 0xD3#8 0x09#8).toNat = 2515 := toNat_composeValue 0xD3#8 0x09#8
  refine ⟨fun raw => rfl, ?_, hraw⟩
  rw [celsius, hraw]
  norm_num

end Sys2Proof.Machine
end

section
/-! PROOFS. The frames of a host's requests, and a parameterized frame's checksum from the block (spec/41_host_frames.md R110,
R111). -/
namespace Sys2Proof.Machine

theorem parameterizedFrame_checksum (poly cmd low high : Byte) :
    (parameterizedFrame poly cmd low high)[3]? = some (crc8 poly [cmd, low, high]) := rfl

/-- Settles O55: the frames are those of the definitions; `frame.crc` is `crc8` of the first three bytes, so the block ends with
the fourth on `crc_out`. -/
theorem framesAndTheirChecksum : Obligations.FramesAndTheirChecksum := by
  unfold Obligations.FramesAndTheirChecksum
  refine ⟨fun _ _ _ => ⟨rfl, rfl, rfl⟩, fun _ _ _ _ => ⟨rfl, rfl⟩, fun _ _ _ _ => rfl, fun _ _ _ => rfl,
    fun s c lo hi rest h => ?_⟩
  exact ⟨_, run_crc8Commands [c, lo, hi] s rest h, parameterizedFrame_checksum s.cfg.poly c lo hi⟩

end Sys2Proof.Machine
end

section
/-! PROOFS. The reserved code and the fault record: what a reserved word leaves behind, and that no other command touches the
mark or the record (spec/60_exceptions.md R130, R131). -/
namespace Sys2Proof.Machine

@[simp] theorem exec_illegal (data : Byte) (s : State) :
    exec (.illegal data) s = .next (s.raiseIllegal (encode (.illegal data))) := rfl

theorem decode_of_illegalRow {w : CmdWord} (h : w &&& 0x300#10 = 0x300#10) : decode w = .illegal (dataField w) := by
  have hop : opField w = 0b11#2 := by rw [← opField_and_mask, h]; rfl
  rw [decode, hop]
  rfl

/-- The recorded word is the one that was presented: the decoder drops no bit of it. -/
theorem exec_decode_of_illegalRow {w : CmdWord} (h : w &&& 0x300#10 = 0x300#10) (s : State) :
    exec (decode w) s = .next (s.raiseIllegal w) := by
  rw [decode_of_illegalRow h, exec_illegal, ← decode_of_illegalRow h, encode_decode]

/-- All a command can do to the fault mark and the record: nothing, or it is the reserved code and raises. -/
theorem exec_fault_cases {i : Instr} {s t : State} (h : exec i s = .next t) :
    (t.faulted = s.faulted ∧ t.faults = s.faults) ∨
    ∃ data, i = .illegal data ∧ t = s.raiseIllegal (encode (.illegal data)) := by
  obtain ⟨data, -, rfl⟩ | ⟨data, -, rfl⟩ | ⟨d, -, rfl⟩ | hillegal := exec_cases h
  · exact .inl ⟨rfl, rfl⟩
  · exact .inl ⟨s.setAcc_faulted _, s.setAcc_faults _⟩
  · exact .inl ⟨s.setAcc_faulted _, s.setAcc_faults _⟩
  · exact .inr hillegal

theorem exec_keeps_faulted {i : Instr} {s t : State} (h : exec i s = .next t) (hs : s.faulted = true) :
    t.faulted = true := by
  obtain ⟨hmark, -⟩ | ⟨data, -, rfl⟩ := exec_fault_cases h
  · rw [hmark, hs]
  · exact s.raiseIllegal_faulted _

/-- Settles O13: every command answers, and one that is not the reserved code leaves mark and record alone. -/
theorem commandsRaiseNothing : Obligations.CommandsRaiseNothing := by
  unfold Obligations.CommandsRaiseNothing
  intro i s hi
  obtain ⟨t, ht⟩ := exec_answers_next i s
  obtain hsame | ⟨data, hillegal, -⟩ := exec_fault_cases ht
  · exact ⟨t, ht, hsame⟩
  · exact absurd hillegal (hi data)

/-- Settles O11: a reserved word answers the state with that word raised, alone or as the accepted event of a step; only the
reserved code changes the record, and it sets the mark. -/
theorem reservedWordIsRecorded : Obligations.ReservedWordIsRecorded := by
  unfold Obligations.ReservedWordIsRecorded
  refine ⟨fun w hw s => ⟨?_, fun rest h => ?_⟩, fun w => ⟨rfl, rfl⟩, fun i s t => exec_keeps_faulted, fun i s t h hne => ?_⟩
  · exact ⟨_, exec_decode_of_illegalRow hw s, rfl, rfl, rfl, List.mem_concat_self⟩
  · have hstep : step s = .next ((s.withInputs rest).raiseIllegal w) :=
      (step_eq_exec h (PortEvent.present_accepted w)).trans (exec_decode_of_illegalRow hw _)
    exact ⟨_, hstep, rfl, rfl, rfl⟩
  · obtain ⟨-, hfaults⟩ | ⟨data, hillegal, -⟩ := exec_fault_cases h
    · exact absurd hfaults hne
    · exact ⟨data, hillegal⟩

end Sys2Proof.Machine
end

section
/-! PROOFS. Reset at the ports, and the values a launch starts with (spec/70_reset_and_hazards.md R150). -/
namespace Sys2Proof.Machine

theorem PortEvent.accepted_of_rst {e : PortEvent} (h : e.rst = true) : e.accepted = false := by
  simp [PortEvent.accepted, h]

theorem step_of_rst {s : State} {e : PortEvent} {rest : List PortEvent} (h : s.inputs = e :: rest) (hr : e.rst = true) :
    step s = .next (s.withInputs rest).applyReset := by
  rw [step, State.takeEvent_reset h hr]

/-- Settles O33: reset takes the event without accepting its word, and a launch starts at the CRC of the empty sequence. -/
theorem resetSetsTheState : Obligations.ResetSetsTheState := by
  unfold Obligations.ResetSetsTheState
  refine ⟨fun s e rest h hr => ?_, fun cfg => ?_⟩
  · exact ⟨PortEvent.accepted_of_rst hr, _, step_of_rst h hr, rfl, rfl, rfl, rfl, rfl⟩
  · have hempty : crc8 cfg.poly [] = 0x00#8 := emptySequenceGivesZero.1 cfg.poly
    exact ⟨rfl, rfl, hempty.symm, rfl⟩

end Sys2Proof.Machine
end

section
/-! PROOFS. The host's view of the decoder, and the row of the opcode map that a word lies in (spec/30_encoding.md R62, R63). -/
namespace Sys2Proof.Machine

theorem wellFormed_eq_true (i : Instr) : i.wellFormed = true := by
  cases i <;> rfl

/-- The host's view of a ten-bit word reads what the decoder reads. -/
theorem decodeTableWord_toNat (w : CmdWord) : decodeTableWord 10 w.toNat = some (decode w) := by
  have hlt : w.toNat < 1024 := w.isLt
  rw [decodeTableWord, decodeNat, Nat.mod_eq_of_lt w.isLt, if_pos hlt, BitVec.ofNat_toNat, BitVec.setWidth_eq]

/-- Settles O1: encoder and decoder are inverse to each other, and the host's view of a word of ten bits is the decoder's. -/
theorem decodeEncodeRoundTrip : Obligations.DecodeEncodeRoundTrip := by
  unfold Obligations.DecodeEncodeRoundTrip
  refine ⟨fun i _ => ⟨decode_encode i, ?_⟩, fun w => ⟨encode_decode w, wellFormed_eq_true (decode w)⟩⟩
  rw [decodeTableWord_toNat, decode_encode]

/-- The row that takes a word is the row of the command it decodes to. -/
theorem and_mask_eq_matchWord (w : CmdWord) : w &&& 0x300#10 = (decode w).matchWord := by
  refine cmdWord_ext ?_ ?_
  · rw [opField_and_mask, opField_matchWord_decode]
  · have hmask : (0x300#10).extractLsb' 0 8 = 0#8 := by decide
    rw [dataField_matchWord, dataField, BitVec.extractLsb'_and, hmask, BitVec.and_zero]

/-- Settles O3: the nine words of table V9, each evaluated. -/
theorem writtenWordsDecode : Obligations.WrittenWordsDecode := by
  unfold Obligations.WrittenWordsDecode
  decide

end Sys2Proof.Machine
end

section
/-! PROOFS. One step at the ports: an accepted word, a placed word, an event without effect, a reset (spec/30_encoding.md R60;
spec/10_state.md R20, R29; spec/60_exceptions.md R131). -/
namespace Sys2Proof.Machine

theorem PortEvent.accepted_of_wires {e : PortEvent} (hrst : e.rst = false) (hvalid : e.cmdValid = true)
    (hready : e.cmdReady = true) : e.accepted = true := by
  rw [PortEvent.accepted, hrst, hvalid, hready]
  rfl

theorem PortEvent.accepted_of_idle {e : PortEvent} (h : e.cmdValid = false ∨ e.cmdReady = false) : e.accepted = false := by
  rw [PortEvent.accepted]
  rcases h with h | h <;> simp [h]

theorem step_present {s : State} {w : CmdWord} {rest : List PortEvent} (h : s.inputs = .present w :: rest) :
    step s = exec (decode w) (s.withInputs rest) := by
  rw [step_eq_exec h (PortEvent.present_accepted w), PortEvent.present_cmd]

theorem step_of_notAccepted {s : State} {e : PortEvent} {rest : List PortEvent} (h : s.inputs = e :: rest)
    (hr : e.rst = false) (ha : e.accepted = false) : step s = .next (s.withInputs rest) := by
  rw [step, State.takeEvent_notAccepted h hr ha]

theorem step_of_inputs_nil {s : State} (h : s.inputs = []) : step s = .next s := by
  rw [step, State.takeEvent_nil h]

/-- Settles O30: an event whose wires accept a word is an accepted event, and the decoder gives back what the encoder wrote. -/
theorem stepRunsAcceptedCommand : Obligations.StepRunsAcceptedCommand := by
  unfold Obligations.StepRunsAcceptedCommand
  refine ⟨fun s e rest h hrst hvalid hready => ?_, fun s i rest h => ?_⟩
  · exact step_eq_exec h (PortEvent.accepted_of_wires hrst hvalid hready)
  · rw [step_present h, decode_encode]
    rfl

/-- Where the host's view of the decoder reads a command, the number fits on `cmd` and the decoder reads it there. -/
theorem decodeTableWord_eq_some {nbits w : Nat} {i : Instr} (h : decodeTableWord nbits w = some i) :
    w % 2 ^ nbits < 1024 ∧ decode (BitVec.ofNat 10 (w % 2 ^ nbits)) = i := by
  rw [decodeTableWord, decodeNat] at h
  split_ifs at h with hlt
  exact ⟨hlt, Option.some.inj h⟩

/-- Settles O31: a number that fits on `cmd` is presented to a ready block, before whatever else is to come. -/
theorem placedWordRunsNext : Obligations.PlacedWordRunsNext := by
  unfold Obligations.PlacedWordRunsNext
  intro s nbits w i h
  obtain ⟨hlt, hdecode⟩ := decodeTableWord_eq_some h
  have hplaced : (s.withFetchWord nbits w).inputs = .present (BitVec.ofNat 10 (w % 2 ^ nbits)) :: s.inputs := by
    rw [State.withFetchWord, State.presentNat, if_pos hlt, State.withInputs_inputs]
  rw [step_present hplaced, hdecode, State.withFetchWord, State.presentNat, if_pos hlt]
  rfl

/-- Settles O32: such an event is not accepted, and taking it is all that a step does. -/
theorem unacceptedEventHasNoEffect : Obligations.UnacceptedEventHasNoEffect := by
  unfold Obligations.UnacceptedEventHasNoEffect
  exact ⟨fun s e rest h hrst hidle => step_of_notAccepted h hrst (PortEvent.accepted_of_idle hidle),
    fun s h => step_of_inputs_nil h⟩

/-- Settles O35: reset's values are those of the definition, and reset leaves of a state its POLY and the events to come. -/
theorem resetStateValues : Obligations.ResetStateValues := by
  unfold Obligations.ResetStateValues
  exact ⟨rfl, rfl, rfl, rfl, rfl, rfl, rfl, fun s e rest h hrst => step_of_rst h hrst⟩

/-- Settles O12: the reserved word's answer raises it and no more, and the run goes on from there with the second word. -/
theorem runGoesOnAfterReservedWord : Obligations.RunGoesOnAfterReservedWord := by
  unfold Obligations.RunGoesOnAfterReservedWord
  refine fun s w v rest hw => ⟨exec_decode_of_illegalRow hw s, fun h => ?_⟩
  have hfirst := (step_present h).trans (exec_decode_of_illegalRow hw _)
  obtain ⟨t, ht⟩ := exec_answers_next (decode v) (((s.withInputs (.present v :: rest)).raiseIllegal w).withInputs rest)
  rw [run_succ 1 hfirst, run_succ 0 ((step_present rfl).trans ht)]
  exact ht.symm

/-- Settles O47: where the answer is yes no event is to come, or one that accepts no word and is no reset. -/
theorem readableResultIsStable : Obligations.ReadableResultIsStable := by
  unfold Obligations.ReadableResultIsStable
  intro s h
  rw [State.resultReadable] at h
  rcases hin : s.inputs with _ | ⟨e, rest⟩
  · exact ⟨s, step_of_inputs_nil hin, rfl, fun e rest hcons => absurd hcons (List.cons_ne_nil e rest).symm⟩
  · rw [hin] at h
    simp only [Bool.and_eq_true, Bool.not_eq_true'] at h
    obtain ⟨⟨-, hvalid⟩, hrst⟩ := h
    have hidle : e.accepted = false := PortEvent.accepted_of_idle (.inl hvalid)
    exact ⟨_, step_of_notAccepted hin hrst hidle, rfl, fun _ _ hcons => (List.cons.inj hcons).2⟩

end Sys2Proof.Machine
end

section
/-! PROOFS. What a command and a step write, field by field, and what every run keeps (spec/10_state.md R21, R24, R26, R28;
spec/60_exceptions.md R131). -/
namespace Sys2Proof.Machine

/-! ### The frame of a command -/

theorem exec_cfg {i : Instr} {s t : State} (h : exec i s = .next t) : t.cfg = s.cfg := by
  obtain ⟨_, -, rfl⟩ | ⟨_, -, rfl⟩ | ⟨_, -, rfl⟩ | ⟨_, -, rfl⟩ := exec_cases h <;> rfl

theorem exec_inputs {i : Instr} {s t : State} (h : exec i s = .next t) : t.inputs = s.inputs := by
  obtain ⟨_, -, rfl⟩ | ⟨_, -, rfl⟩ | ⟨_, -, rfl⟩ | ⟨_, -, rfl⟩ := exec_cases h <;> rfl

/-- A command keeps ACC, or it is INIT or UPDATE. -/
theorem exec_acc_cases {i : Instr} {s t : State} (h : exec i s = .next t) :
    t.acc = s.acc ∨ (∃ data, i = .init data) ∨ ∃ d, i = .update d := by
  obtain ⟨_, -, rfl⟩ | ⟨data, hi, -⟩ | ⟨d, hi, -⟩ | ⟨_, -, rfl⟩ := exec_cases h
  · exact .inl rfl
  · exact .inr (.inl ⟨data, hi⟩)
  · exact .inr (.inr ⟨d, hi⟩)
  · exact .inl (s.raiseIllegal_acc _)

/-- Settles O14: each clause is the frame of one field. -/
theorem commandFrame : Obligations.CommandFrame := by
  unfold Obligations.CommandFrame
  refine fun i s t h => ⟨exec_cfg h, exec_inputs h, fun hinit hupdate => ?_, fun hillegal => ?_⟩
  · obtain hacc | ⟨data, hi⟩ | ⟨d, hi⟩ := exec_acc_cases h
    · exact hacc
    · exact absurd hi (hinit data)
    · exact absurd hi (hupdate d)
  · obtain hsame | ⟨data, hi, -⟩ := exec_fault_cases h
    · exact hsame
    · exact absurd hi (hillegal data)

/-! ### The frame of a step -/

theorem step_cfg {s t : State} (h : step s = .next t) : t.cfg = s.cfg := by
  obtain ⟨-, rfl⟩ | ⟨e, rest, -, ⟨-, rfl⟩ | ⟨-, -, rfl⟩ | ⟨-, hexec⟩⟩ := step_cases h
  · rfl
  · rfl
  · rfl
  · rw [exec_cfg hexec, State.withInputs_cfg]

theorem step_inputs {s t : State} (h : step s = .next t) : t.inputs = s.inputs.tail := by
  obtain ⟨hnil, rfl⟩ | ⟨e, rest, hcons, ⟨-, rfl⟩ | ⟨-, -, rfl⟩ | ⟨-, hexec⟩⟩ := step_cases h
  · rw [hnil, List.tail_nil]
  · rw [hcons, List.tail_cons, State.applyReset_inputs, State.withInputs_inputs]
  · rw [hcons, List.tail_cons, State.withInputs_inputs]
  · rw [hcons, List.tail_cons, exec_inputs hexec, State.withInputs_inputs]

/-- Settles O39: a step that is neither a reset nor a command keeps ACC, and so does a command of another row. -/
theorem onlyInitUpdateAndResetWriteAcc : Obligations.OnlyInitUpdateAndResetWriteAcc := by
  unfold Obligations.OnlyInitUpdateAndResetWriteAcc
  intro s t h hne
  obtain ⟨-, rfl⟩ | ⟨e, rest, hin, ⟨hrst, -⟩ | ⟨-, -, rfl⟩ | ⟨hacc, hexec⟩⟩ := step_cases h
  · exact absurd rfl hne
  · exact ⟨e, rest, hin, .inl hrst⟩
  · exact absurd (s.withInputs_acc rest) hne
  · refine ⟨e, rest, hin, .inr ⟨hacc, ?_⟩⟩
    rw [and_mask_eq_matchWord]
    obtain hsame | ⟨data, hi⟩ | ⟨d, hi⟩ := exec_acc_cases hexec
    · exact absurd hsame hne
    · rw [hi]
      exact .inl rfl
    · rw [hi]
      exact .inr rfl

/-- All a step can do to the fault mark and the record: nothing, clear both by a reset, or raise an accepted reserved word. -/
theorem step_fault_cases {s t : State} (h : step s = .next t) :
    (t.faulted = s.faulted ∧ t.faults = s.faults) ∨
    ∃ e rest, s.inputs = e :: rest ∧
      ((e.rst = true ∧ t.faulted = false ∧ t.faults = []) ∨
       (e.accepted = true ∧ e.cmd &&& 0x300#10 = 0x300#10 ∧ t.faulted = true ∧
        t.faults = s.faults ++ [.illegalCommand e.cmd])) := by
  obtain ⟨-, rfl⟩ | ⟨e, rest, hin, ⟨hrst, rfl⟩ | ⟨-, -, rfl⟩ | ⟨hacc, hexec⟩⟩ := step_cases h
  · exact .inl ⟨rfl, rfl⟩
  · exact .inr ⟨e, rest, hin, .inl ⟨hrst, rfl, rfl⟩⟩
  · exact .inl ⟨rfl, rfl⟩
  · obtain hsame | ⟨data, hi, rfl⟩ := exec_fault_cases hexec
    · exact .inl hsame
    · refine .inr ⟨e, rest, hin, .inr ⟨hacc, ?_, rfl, ?_⟩⟩
      · rw [and_mask_eq_matchWord, hi]
        rfl
      · rw [← hi, encode_decode]
        rfl

/-- Settles O40: of all a step can do to the mark, only a reserved word sets it and only a reset clears it. -/
theorem onlyReservedWordsMarkOnlyResetClears : Obligations.OnlyReservedWordsMarkOnlyResetClears := by
  unfold Obligations.OnlyReservedWordsMarkOnlyResetClears
  intro s t h
  obtain ⟨hmark, -⟩ | ⟨e, rest, hin, ⟨hrst, hclear, -⟩ | ⟨hacc, hrow, hset, -⟩⟩ := step_fault_cases h
  · rw [hmark]
    exact ⟨fun hclear hset => absurd (hclear.symm.trans hset) Bool.false_ne_true,
      fun hset hclear => absurd (hclear.symm.trans hset) Bool.false_ne_true⟩
  · exact ⟨fun _ hset => absurd (hclear.symm.trans hset) Bool.false_ne_true, fun _ _ => ⟨e, rest, hin, hrst⟩⟩
  · exact ⟨fun _ _ => ⟨e, rest, hin, hacc, hrow⟩, fun _ hclear => absurd (hclear.symm.trans hset) Bool.false_ne_true⟩

/-! ### The invariant of the fault record -/

theorem State.faultsConsistent_iff (s : State) :
    s.faultsConsistent = true ↔ (s.faulted = !s.faults.isEmpty) ∧ ∀ f ∈ s.faults, opField f.word = 0b11#2 := by
  rw [State.faultsConsistent, Bool.and_eq_true, beq_iff_eq, List.all_eq_true]
  simp only [beq_iff_eq]

theorem opField_of_illegalRow {w : CmdWord} (h : w &&& 0x300#10 = 0x300#10) : opField w = 0b11#2 := by
  rw [← opField_and_mask, h]
  rfl

/-- Settles O41: a step that keeps mark and record keeps the invariant, a reset leaves neither, and a raise adds a reserved
word to the record and sets the mark. -/
theorem stepKeepsFaultRecord : Obligations.StepKeepsFaultRecord := by
  unfold Obligations.StepKeepsFaultRecord
  intro s t hs h
  rw [State.faultsConsistent_iff] at hs ⊢
  obtain ⟨hmark, hrec⟩ | ⟨e, rest, -, ⟨-, hmark, hrec⟩ | ⟨-, hrow, hmark, hrec⟩⟩ := step_fault_cases h
  · rw [hmark, hrec]
    exact hs
  · rw [hmark, hrec]
    exact ⟨rfl, List.forall_mem_nil _⟩
  · obtain ⟨-, hwords⟩ := hs
    rw [hmark, hrec, List.forall_mem_append, List.forall_mem_singleton]
    exact ⟨by simp, hwords, opField_of_illegalRow hrow⟩

/-- Settles O42: after reset the mark is clear and nothing is recorded. -/
theorem resetMeetsFaultRecord : Obligations.ResetMeetsFaultRecord := by
  unfold Obligations.ResetMeetsFaultRecord
  exact State.reset.faultsConsistent_iff.mpr ⟨rfl, List.forall_mem_nil _⟩

theorem Fault.code_eq_one (f : Fault) : f.code = 1 := by
  cases f
  rfl

/-- Settles O43: the code is 0 of an empty record and 1 of any other, and the invariant ties the mark to that. -/
theorem causeCodeFollowsMark : Obligations.CauseCodeFollowsMark := by
  unfold Obligations.CauseCodeFollowsMark
  intro s hs
  obtain ⟨hmark, -⟩ := s.faultsConsistent_iff.mp hs
  rw [hmark, State.causeCode]
  cases s.faults with
  | nil => simp
  | cons f fs => simp [f.code_eq_one]

/-! ### What every run keeps -/

/-- What every step keeps holds at the end of every run. -/
theorem run_invariant {P : State → Prop} (hstep : ∀ {s t}, P s → step s = .next t → P t) {k : Nat} {s t : State}
    (hs : P s) (h : run k s = .next t) : P t := by
  induction k generalizing s with
  | zero =>
    obtain rfl : s = t := Host.Outcome.next.inj h
    exact hs
  | succ k ih =>
    obtain ⟨u, hu⟩ := step_answers_next s
    exact ih (hstep hs hu) ((run_succ k hu).symm.trans h)

/-- Settles O38: no step writes POLY. -/
theorem polyNeverChanges : Obligations.PolyNeverChanges := by
  unfold Obligations.PolyNeverChanges
  exact fun k s t h => run_invariant (P := fun u => u.cfg = s.cfg) (fun hs hu => (step_cfg hu).trans hs) rfl h

/-- Settles O37: each step answers and takes the first event. -/
theorem eventsAreTakenInOrder : Obligations.EventsAreTakenInOrder := by
  unfold Obligations.EventsAreTakenInOrder
  intro k
  induction k with
  | zero => exact fun s => ⟨s, rfl, rfl⟩
  | succ k ih =>
    intro s
    obtain ⟨u, hu⟩ := step_answers_next s
    obtain ⟨t, ht, hdrop⟩ := ih u
    refine ⟨t, (run_succ k hu).trans ht, ?_⟩
    rw [hdrop, step_inputs hu, List.drop_tail]

/-- No fault is recorded, and no word to come records one. -/
def State.staysFaultless (s : State) : Prop :=
  s.noFault = true ∧ ∀ e ∈ s.inputs, e.accepted = true → e.cmd &&& 0x300#10 ≠ 0x300#10

theorem step_keeps_staysFaultless {s t : State} (hs : s.staysFaultless) (h : step s = .next t) : t.staysFaultless := by
  obtain ⟨hmark, hwords⟩ := hs
  refine ⟨?_, fun e he => hwords e (List.mem_of_mem_tail (step_inputs h ▸ he))⟩
  obtain ⟨hsame, -⟩ | ⟨e, rest, hin, ⟨-, hclear, -⟩ | ⟨hacc, hrow, -⟩⟩ := step_fault_cases h
  · rw [State.noFault, hsame]
    exact hmark
  · rw [State.noFault, hclear]
    rfl
  · exact absurd hrow (hwords e (hin ▸ List.mem_cons_self) hacc)

/-- Settles O46: a step sets the mark for no other word than an accepted reserved one, and takes none that was not to come. -/
theorem noReservedWordNoFault : Obligations.NoReservedWordNoFault := by
  unfold Obligations.NoReservedWordNoFault
  intro k s t hmark hwords h
  obtain ⟨hend, -⟩ : t.staysFaultless := run_invariant step_keeps_staysFaultless ⟨hmark, hwords⟩ h
  exact hend

/-! ### ACC is a function of POLY, the ACC before and the events -/

/-- The ACC that a command leaves. -/
def accAfter (poly a : Byte) : Instr → Byte
  | .nop _ => a
  | .init _ => Config.initValue
  | .update d => upd poly a d
  | .illegal _ => a

/-- The ACC that an event at the ports leaves. -/
def accAfterEvent (poly a : Byte) (e : PortEvent) : Byte :=
  if e.rst then 0x00#8 else if e.accepted then accAfter poly a (decode e.cmd) else a

theorem exec_acc {i : Instr} {s t : State} (h : exec i s = .next t) : t.acc = accAfter s.cfg.poly s.acc i := by
  obtain ⟨_, rfl, rfl⟩ | ⟨_, rfl, rfl⟩ | ⟨_, rfl, rfl⟩ | ⟨_, rfl, rfl⟩ := exec_cases h <;> rfl

@[simp] theorem accAfterEvent_present (poly a : Byte) (i : Instr) :
    accAfterEvent poly a (.present (encode i)) = accAfter poly a i := by
  simp [accAfterEvent]

theorem step_acc {s t : State} {e : PortEvent} {rest : List PortEvent} (hin : s.inputs = e :: rest)
    (h : step s = .next t) : t.acc = accAfterEvent s.cfg.poly s.acc e := by
  obtain ⟨hnil, -⟩ | ⟨e', rest', hcons, hcase⟩ := step_cases h
  · exact absurd (hin.symm.trans hnil) (List.cons_ne_nil e rest)
  · obtain ⟨rfl, rfl⟩ := List.cons.inj (hcons.symm.trans hin)
    obtain ⟨hrst, rfl⟩ | ⟨hrst, hacc, rfl⟩ | ⟨hacc, hexec⟩ := hcase
    · simp [accAfterEvent, hrst]
    · simp [accAfterEvent, hrst, hacc]
    · simp [accAfterEvent, PortEvent.rst_of_accepted hacc, hacc, exec_acc hexec]

/-- The ACC at the end of a run is the fold over the events taken, whatever the mark and the record are. -/
theorem run_acc {k : Nat} {s t : State} (h : run k s = .next t) :
    t.acc = (s.inputs.take k).foldl (accAfterEvent s.cfg.poly) s.acc := by
  induction k generalizing s with
  | zero =>
    obtain rfl : s = t := Host.Outcome.next.inj h
    rfl
  | succ k ih =>
    obtain ⟨u, hu⟩ := step_answers_next s
    rw [ih ((run_succ k hu).symm.trans h), step_cfg hu, step_inputs hu]
    rcases hin : s.inputs with _ | ⟨e, rest⟩
    · obtain rfl : s = u := Host.Outcome.next.inj ((step_of_inputs_nil hin).symm.trans hu)
      simp
    · rw [step_acc hin hu]
      rfl

/-- Settles O44: both runs fold the same events from the same ACC under the same POLY. -/
theorem faultRecordNeverReachesAcc : Obligations.FaultRecordNeverReachesAcc := by
  unfold Obligations.FaultRecordNeverReachesAcc
  intro k s s' t t' hcfg hacc hin h h'
  rw [run_acc h, run_acc h', hcfg, hacc, hin]

end Sys2Proof.Machine
end

section
/-! PROOFS. The bit-serial block: one cycle by cases, the ACC it settles at, and the atomic machine that describes it
(spec/10_state.md R27; spec/70_reset_and_hazards.md R150, R154, R156). -/
namespace Sys2Proof.Machine

/-! ### One cycle -/

theorem Serial.cmdReady_iff (c : Serial) : c.cmdReady = true ↔ c.left = 0 := beq_iff_eq

theorem Serial.cmdReady_eq_false_iff (c : Serial) : c.cmdReady = false ↔ c.left ≠ 0 := beq_eq_false_iff_ne

theorem Serial.cycle_of_rst (c : Serial) {i : SerialInput} (h : i.rst = true) : c.cycle i = c.reset := by
  rw [Serial.cycle, if_pos h]

theorem Serial.cycle_of_ready {c : Serial} {i : SerialInput} (hrst : i.rst = false) (hready : c.cmdReady = true) :
    c.cycle i = if i.cmdValid then c.accept (decode i.cmd) else c := by
  rw [Serial.cycle, hrst, hready]
  rfl

theorem Serial.cycle_of_busy {c : Serial} {i : SerialInput} (hrst : i.rst = false) (hbusy : c.cmdReady = false) :
    c.cycle i = if i.shifts then c.shift else c := by
  rw [Serial.cycle, hrst, hbusy]
  rfl

theorem Serial.accept_cfg (c : Serial) (i : Instr) : (c.accept i).cfg = c.cfg := by
  cases i <;> rfl

theorem Serial.shift_cfg (c : Serial) : c.shift.cfg = c.cfg := by
  unfold Serial.shift
  split <;> rfl

theorem Serial.cycle_cfg (c : Serial) (i : SerialInput) : (c.cycle i).cfg = c.cfg := by
  unfold Serial.cycle
  split_ifs
  · rfl
  · exact c.accept_cfg _
  · rfl
  · exact c.shift_cfg
  · rfl

@[simp] theorem Serial.cycles_nil (c : Serial) : c.cycles [] = c := rfl

@[simp] theorem Serial.cycles_cons (c : Serial) (i : SerialInput) (is : List SerialInput) :
    c.cycles (i :: is) = (c.cycle i).cycles is := rfl

theorem Serial.cycles_append (c : Serial) (is js : List SerialInput) :
    c.cycles (is ++ js) = (c.cycles is).cycles js := List.foldl_append

/-- Settles O34: reset writes every field but POLY. -/
theorem resetAbandonsCommandInProgress : Obligations.ResetAbandonsCommandInProgress := by
  unfold Obligations.ResetAbandonsCommandInProgress
  intro c i is h
  rw [Serial.cycles_cons, c.cycle_of_rst h]
  exact ⟨rfl, rfl, rfl⟩

/-! ### The bit-steps of an UPDATE -/

theorem Serial.settled_of_ready {c : Serial} (h : c.cmdReady = true) : c.settled = c.acc := if_pos h

theorem Serial.settled_of_busy {c : Serial} (h : c.cmdReady = false) : c.settled = bitsteps c.cfg.poly c.left c.inner :=
  if_neg (by rw [h]; exact Bool.false_ne_true)

/-- A bit-step that is not the last leaves the block busy, with one bit-step less to do. -/
theorem Serial.shift_of_more {c : Serial} {n : Nat} (h : c.left = n + 2) :
    c.shift = { c with inner := bitstep c.cfg.poly c.inner, left := n + 1 } := by
  rw [Serial.shift, h]

/-- The last bit-step writes ACC and makes the block ready. -/
theorem Serial.shift_of_last {c : Serial} (h : c.left = 1) :
    c.shift = { c with acc := bitstep c.cfg.poly c.inner, inner := bitstep c.cfg.poly c.inner, left := 0 } := by
  rw [Serial.shift, h]

/-- A bit-step of a busy block holds `crc_out` and the result to come, or it is the last and shows that result. -/
theorem Serial.shift_cases {c : Serial} (hbusy : c.cmdReady = false) :
    (c.shift.cmdReady = false ∧ c.shift.crcOut = c.crcOut ∧ c.shift.settled = c.settled) ∨
    (c.shift.cmdReady = true ∧ c.shift.crcOut = c.settled) := by
  rw [Serial.settled_of_busy hbusy]
  rw [Serial.cmdReady_eq_false_iff] at hbusy
  rcases hleft : c.left with _ | _ | n
  · exact absurd hleft hbusy
  · rw [Serial.shift_of_last hleft]
    exact .inr ⟨rfl, rfl⟩
  · rw [Serial.shift_of_more hleft]
    exact .inl ⟨rfl, rfl, rfl⟩

/-- Settles O49: without reset a busy block makes a bit-step or nothing. -/
theorem outputHeldUntilUpdateCompletes : Obligations.OutputHeldUntilUpdateCompletes := by
  unfold Obligations.OutputHeldUntilUpdateCompletes
  intro c i hbusy hrst
  rw [Serial.cycle_of_busy hrst hbusy]
  split_ifs
  · exact Serial.shift_cases hbusy
  · exact .inl ⟨hbusy, rfl, rfl⟩

theorem Serial.settled_shift {c : Serial} (hbusy : c.cmdReady = false) : c.shift.settled = c.settled := by
  obtain ⟨-, -, hsettled⟩ | ⟨hready, hout⟩ := Serial.shift_cases hbusy
  · exact hsettled
  · exact (Serial.settled_of_ready hready).trans hout

/-- The bit-steps that the datapath makes in a list of cycles of a busy block. -/
def shiftCount (is : List SerialInput) : Nat := is.countP fun j => j.shifts

theorem shiftCount_cons_of_shifts {j : SerialInput} (is : List SerialInput) (h : j.shifts = true) :
    shiftCount (j :: is) = shiftCount is + 1 := List.countP_cons_of_pos h

theorem shiftCount_cons_of_waits {j : SerialInput} (is : List SerialInput) (h : ¬j.shifts = true) :
    shiftCount (j :: is) = shiftCount is := List.countP_cons_of_neg h

/-- Fewer bit-steps than are left to do keep the block busy, however the cycles between them fall. -/
theorem Serial.cycles_of_busy {c : Serial} {is : List SerialInput} (hrst : ∀ j ∈ is, j.rst = false)
    (hfew : shiftCount is < c.left) :
    c.cycles is = { c with inner := bitsteps c.cfg.poly (shiftCount is) c.inner, left := c.left - shiftCount is } := by
  induction is generalizing c with
  | nil => rfl
  | cons j is ih =>
    obtain ⟨hj, hjs⟩ := List.forall_mem_cons.mp hrst
    have hbusy : c.cmdReady = false := c.cmdReady_eq_false_iff.mpr (by omega)
    rw [Serial.cycles_cons, Serial.cycle_of_busy hj hbusy]
    split_ifs with hshift
    · rw [shiftCount_cons_of_shifts is hshift] at hfew ⊢
      obtain ⟨n, hleft⟩ : ∃ n, c.left = n + 2 := ⟨c.left - 2, by omega⟩
      rw [Serial.shift_of_more hleft, ih hjs (by simp only; omega), hleft, bitsteps_succ, Nat.succ_sub_succ]
    · rw [shiftCount_cons_of_waits is hshift] at hfew ⊢
      exact ih hjs hfew

theorem Serial.cycle_update {c : Serial} {i : SerialInput} {d : Byte} (hready : c.cmdReady = true) (hrst : i.rst = false)
    (hvalid : i.cmdValid = true) (hd : decode i.cmd = .update d) :
    c.cycle i = { c with inner := c.acc ^^^ d, left := 8 } := by
  rw [Serial.cycle_of_ready hrst hready, if_pos hvalid, hd]
  rfl

/-- Settles O50: the block starts with eight bit-steps to do; seven leave it busy with one to do, and that one writes ACC. -/
theorem bitSerialUpdateTakesEightShifts : Obligations.BitSerialUpdateTakesEightShifts := by
  unfold Obligations.BitSerialUpdateTakesEightShifts
  intro c i d is hready hirst hvalid hd hrst
  simp only [Serial.cycles_cons, Serial.cycles_append, Serial.cycles_nil, Serial.cycle_update hready hirst hvalid hd]
  refine ⟨fun (hfew : shiftCount is < 8) => ?_, fun j hj hshift (hseven : shiftCount is = 7) => ?_⟩
  · rw [Serial.cycles_of_busy hrst hfew, Serial.cmdReady_eq_false_iff]
    exact ⟨Nat.sub_ne_zero_of_lt hfew, rfl⟩
  · rw [Serial.cycles_of_busy hrst (by simp only; omega), hseven, Serial.cycle_of_busy hj rfl, if_pos hshift,
      Serial.shift_of_last rfl]
    exact ⟨rfl, (bitsteps_succ_last c.cfg.poly (c.acc ^^^ d) 7).symm⟩

/-! ### The atomic machine -/

theorem Serial.agrees_iff (c : Serial) (s : State) : c.agrees s = true ↔ s.cfg = c.cfg ∧ s.acc = c.settled := by
  rw [Serial.agrees, Bool.and_eq_true, beq_iff_eq, beq_iff_eq]

theorem Serial.settled_accept {c : Serial} (hready : c.cmdReady = true) (i : Instr) :
    (c.accept i).settled = accAfter c.cfg.poly c.acc i := by
  cases i with
  | nop data => exact Serial.settled_of_ready hready
  | init data => exact Serial.settled_of_ready (c := { c with acc := Config.initValue }) hready
  | update d => rfl
  | illegal data => exact Serial.settled_of_ready hready

/-- What a cycle makes of the settled ACC is what the atomic machine makes of ACC at the event that the ports show. -/
theorem Serial.settled_cycle (c : Serial) (i : SerialInput) :
    (c.cycle i).settled = accAfterEvent c.cfg.poly c.settled (c.event i) := by
  rcases hrst : i.rst with _ | _
  · rcases hready : c.cmdReady with _ | _
    · have hkeep : (c.cycle i).settled = c.settled := by
        rw [Serial.cycle_of_busy hrst hready]
        split_ifs
        · exact Serial.settled_shift hready
        · rfl
      simp [accAfterEvent, PortEvent.accepted, Serial.event, hrst, hready, hkeep]
    · rw [Serial.cycle_of_ready hrst hready, apply_ite Serial.settled, Serial.settled_accept hready,
        Serial.settled_of_ready hready]
      simp [accAfterEvent, PortEvent.accepted, Serial.event, hrst, hready]
  · rw [c.cycle_of_rst hrst]
    simp [accAfterEvent, Serial.event, hrst, Serial.reset, Serial.settled, Serial.cmdReady]

/-- One cycle of the block is one step of the atomic machine. -/
theorem Serial.agrees_cycle {c : Serial} {s t : State} {i : SerialInput} {rest : List PortEvent} (hs : c.agrees s = true)
    (hin : s.inputs = c.event i :: rest) (h : step s = .next t) : (c.cycle i).agrees t = true := by
  rw [Serial.agrees_iff] at hs ⊢
  obtain ⟨hcfg, hacc⟩ := hs
  rw [step_cfg h, step_acc hin h, c.cycle_cfg, c.settled_cycle, hcfg, hacc]
  exact ⟨rfl, rfl⟩

theorem Serial.agrees_cycles {c : Serial} {s : State} {is : List SerialInput} {rest : List PortEvent}
    (hs : c.agrees s = true) (hin : s.inputs = c.events is ++ rest) :
    ∃ t, run is.length s = .next t ∧ t.inputs = rest ∧ (c.cycles is).agrees t = true := by
  induction is generalizing c s with
  | nil => exact ⟨s, rfl, hin, hs⟩
  | cons i is ih =>
    obtain ⟨u, hu⟩ := step_answers_next s
    have hrest : u.inputs = (c.cycle i).events is ++ rest := by
      rw [step_inputs hu, hin]
      rfl
    obtain ⟨t, ht, hend⟩ := ih (Serial.agrees_cycle hs hin hu) hrest
    exact ⟨t, (run_succ is.length hu).trans ht, hend⟩

/-- Settles O48: cycle by cycle the atomic ACC is the block's settled one, and that is on `crc_out` where the block is ready. -/
theorem atomicMachineDescribesBitSerialBlock : Obligations.AtomicMachineDescribesBitSerialBlock := by
  unfold Obligations.AtomicMachineDescribesBitSerialBlock
  intro is c s rest hs hin
  obtain ⟨t, ht, hrest, hagree⟩ := Serial.agrees_cycles hs hin
  obtain ⟨-, hacc⟩ := ((c.cycles is).agrees_iff t).mp hagree
  exact ⟨t, ht, hrest, hagree, fun hready => ((Serial.settled_of_ready hready).symm.trans hacc.symm)⟩

end Sys2Proof.Machine
end

section
/-! PROOFS. Commands held until they are accepted (spec/30_encoding.md R60; spec/70_reset_and_hazards.md R154). -/
namespace Sys2Proof.Machine

@[simp] theorem holdUntilReady_zero (w : CmdWord) : holdUntilReady 0 w = [.present w] := rfl

@[simp] theorem holdUntilReady_succ (n : Nat) (w : CmdWord) :
    holdUntilReady (n + 1) w = .waiting w :: holdUntilReady n w := rfl

theorem length_holdUntilReady (n : Nat) (w : CmdWord) : (holdUntilReady n w).length = n + 1 := by
  rw [holdUntilReady, List.length_append, List.length_replicate, List.length_singleton]

@[simp] theorem presentHeld_cons (waits : Nat) (i : Instr) (held : List (Nat × Instr)) :
    presentHeld ((waits, i) :: held) = holdUntilReady waits (encode i) ++ presentHeld held := rfl

/-- An accepted event asks nothing of the events after it. -/
theorem holdsUntilAccepted_present_cons (w : CmdWord) (es : List PortEvent) :
    holdsUntilAccepted (.present w :: es) = holdsUntilAccepted es := by
  cases es <;> simp [holdsUntilAccepted]

/-- A word that waits asks that the next event presents it again. -/
theorem holdsUntilAccepted_waiting_cons {w : CmdWord} {e : PortEvent} (es : List PortEvent) (hvalid : e.cmdValid = true)
    (hcmd : e.cmd = w) : holdsUntilAccepted (.waiting w :: e :: es) = holdsUntilAccepted (e :: es) := by
  simp [holdsUntilAccepted, hvalid, hcmd, PortEvent.waiting]

theorem holdsUntilAccepted_holdUntilReady_append (n : Nat) (w : CmdWord) (es : List PortEvent) :
    holdsUntilAccepted (holdUntilReady n w ++ es) = holdsUntilAccepted es := by
  induction n with
  | zero => exact holdsUntilAccepted_present_cons w es
  | succ n ih =>
    rw [← ih]
    cases n with
    | zero => exact holdsUntilAccepted_waiting_cons es rfl rfl
    | succ n => exact holdsUntilAccepted_waiting_cons _ rfl rfl

theorem holdsUntilAccepted_presentHeld (held : List (Nat × Instr)) : holdsUntilAccepted (presentHeld held) = true := by
  induction held with
  | nil => rfl
  | cons h held ih => rw [presentHeld_cons, holdsUntilAccepted_holdUntilReady_append, ih]

/-- A held word runs once, at its acceptance: the events before that change nothing. -/
theorem run_holdUntilReady {s t : State} {i : Instr} {rest : List PortEvent} (n k : Nat)
    (h : s.inputs = holdUntilReady n (encode i) ++ rest) (ht : exec i (s.withInputs rest) = .next t) :
    run (n + 1 + k) s = run k t := by
  induction n generalizing s with
  | zero =>
    rw [Nat.add_comm, run_present k (is := []) h ht]
  | succ n ih =>
    have hwait : step s = .next (s.withInputs (holdUntilReady n (encode i) ++ rest)) :=
      step_of_notAccepted h (PortEvent.waiting_rst _) (PortEvent.waiting_accepted _)
    rw [Nat.add_right_comm (n + 1) 1 k, run_succ _ hwait]
    exact ih rfl ht

/-- A command does not read the events to come. -/
theorem exec_withInputs {i : Instr} {s t : State} (h : exec i s = .next t) (es : List PortEvent) :
    exec i (s.withInputs es) = .next (t.withInputs es) := by
  obtain ⟨_, rfl, rfl⟩ | ⟨_, rfl, rfl⟩ | ⟨_, rfl, rfl⟩ | ⟨_, rfl, rfl⟩ := exec_cases h <;> rfl

theorem run_presentHeld (held : List (Nat × Instr)) (s : State) (rest : List PortEvent)
    (h : s.inputs = presentHeld held ++ rest) :
    run (presentHeld held).length s =
      run held.length (s.withInputs (presentAll (held.map fun h => h.2) ++ rest)) := by
  induction held generalizing s with
  | nil =>
    obtain rfl : s.inputs = rest := h
    rfl
  | cons entry held ih =>
    obtain ⟨waits, i⟩ := entry
    rw [presentHeld_cons, List.append_assoc] at h
    obtain ⟨t, ht⟩ := exec_answers_next i (s.withInputs (presentHeld held ++ rest))
    have hlater : t.inputs = presentHeld held ++ rest := exec_inputs ht
    rw [presentHeld_cons, List.length_append, length_holdUntilReady, run_holdUntilReady waits _ h ht, ih t hlater,
      List.length_cons]
    exact (run_present (s := s.withInputs (presentAll (i :: held.map fun h => h.2) ++ rest)) held.length rfl
      (exec_withInputs ht _)).symm

/-- Settles O45: each held command runs once, and it answers the same whatever events are to come. -/
theorem waitsDoNotChangeTheResult : Obligations.WaitsDoNotChangeTheResult := by
  unfold Obligations.WaitsDoNotChangeTheResult
  exact ⟨holdsUntilAccepted_presentHeld, fun s held rest h => run_presentHeld held s rest h⟩

end Sys2Proof.Machine
end

section
/-! PROOFS. Several hosts and several blocks (spec/20_memory.md R50; spec/60_exceptions.md R139; spec/70_reset_and_hazards.md
R152, R155). -/
namespace Sys2Proof.Machine

/-! ### Interleavings -/

theorem exists_tagged_of_interleave (sched : List Bool) (xs ys : List Instr) :
    ∃ merged : List (Bool × Instr), (merged.filter fun m => m.1).map (fun m => m.2) = xs ∧
      (merged.filter fun m => !m.1).map (fun m => m.2) = ys ∧ merged.map (fun m => m.2) = interleave sched xs ys := by
  induction sched, xs, ys using interleave.induct with
  | case1 xs ys =>
    refine ⟨xs.map (true, ·) ++ ys.map (false, ·), ?_, ?_, ?_⟩ <;>
      simp [interleave, List.filter_map, Function.comp_def]
  | case2 sched x xs ys ih =>
    obtain ⟨merged, rfl, rfl, hmerged⟩ := ih
    exact ⟨(true, x) :: merged, rfl, rfl, congrArg (x :: ·) hmerged⟩
  | case3 sched ys ih => exact ih
  | case4 sched xs y ys ih =>
    obtain ⟨merged, rfl, rfl, hmerged⟩ := ih
    exact ⟨(false, y) :: merged, rfl, rfl, by simpa [interleave] using hmerged⟩
  | case5 sched xs ih =>
    obtain ⟨merged, hxs, hys, hmerged⟩ := ih
    exact ⟨merged, hxs, hys, by simpa [interleave] using hmerged⟩

theorem interleave_tags (merged : List (Bool × Instr)) :
    interleave (merged.map fun m => m.1) ((merged.filter fun m => m.1).map fun m => m.2)
      ((merged.filter fun m => !m.1).map fun m => m.2) = merged.map fun m => m.2 := by
  induction merged with
  | nil => rfl
  | cons m merged ih =>
    obtain ⟨_ | _, i⟩ := m
    · simpa [interleave] using ih
    · exact congrArg (i :: ·) ih

/-- Settles O51: a schedule's tags give the tagged sequence, and the tags of a sequence are a schedule for it. -/
theorem schedulesGiveTheInterleavings : Obligations.SchedulesGiveTheInterleavings := by
  unfold Obligations.SchedulesGiveTheInterleavings
  exact ⟨exists_tagged_of_interleave, interleave_tags⟩

/-! ### One computation on a block that hosts share -/

theorem filter_of_exclusiveUse {h : Nat} {cmds : List (Nat × Instr)} (hex : exclusiveUse h cmds = true) :
    cmds.filter (fun c => c.1 == h) = cmds :=
  List.filter_eq_self.mpr (List.all_eq_true.mp hex)

/-- Settles O52: INIT and the absorbing commands end with the CRC-8 of all their bytes, which are the host's own where it issued
every command. -/
theorem exclusiveUseGivesOwnCrc : Obligations.ExclusiveUseGivesOwnCrc := by
  unfold Obligations.ExclusiveUseGivesOwnCrc
  intro s h data cmds rest habs hin
  have hrun := run_init_absorbsOnly data _ s rest habs hin
  rw [List.length_map] at hrun
  refine ⟨_, hrun, rfl, fun hex => ?_⟩
  rw [filter_of_exclusiveUse hex]
  rfl

theorem run_answers_next (k : Nat) (s : State) : ∃ t, run k s = .next t := by
  obtain ⟨t, ht, -⟩ := eventsAreTakenInOrder k s
  exact ⟨t, ht⟩

/-- ACC after presented commands is the fold over them. -/
theorem run_presentAll_acc {is : List Instr} {s t : State} {rest : List PortEvent} (hin : s.inputs = presentAll is ++ rest)
    (h : run is.length s = .next t) : t.acc = is.foldl (accAfter s.cfg.poly) s.acc := by
  have htaken : s.inputs.take is.length = presentAll is := by
    rw [hin, presentAll]
    exact List.take_left' (List.length_map _)
  rw [run_acc h, htaken, presentAll, List.foldl_map]
  simp only [accAfterEvent_present]

/-- Where INIT comes before the first UPDATE and an UPDATE comes at all, the ACC before is forgotten. -/
theorem foldl_accAfter_of_initFirst (poly : Byte) {is : List Instr} (hinit : initFirst is = true)
    (hbytes : updateBytes is ≠ []) (a b : Byte) : is.foldl (accAfter poly) a = is.foldl (accAfter poly) b := by
  induction is with
  | nil => exact absurd rfl hbytes
  | cons i is ih =>
    cases i with
    | nop data => exact ih hinit hbytes
    | init data => rfl
    | update d => cases hinit
    | illegal data => exact ih hinit hbytes

/-- Settles O53: ACC is the fold over the commands, which INIT cuts off from the ACC before; a launch starts the fold at CRC-8's
own initial value. -/
theorem initFirstForgetsEarlierAcc : Obligations.InitFirstForgetsEarlierAcc := by
  unfold Obligations.InitFirstForgetsEarlierAcc
  refine ⟨fun s s' is rest rest' _ hinit hbytes hcfg hin hin' => ?_, fun cfg is habs => ?_⟩
  · obtain ⟨t, ht⟩ := run_answers_next is.length s
    obtain ⟨t', ht'⟩ := run_answers_next is.length s'
    refine ⟨t, t', ht, ht', ?_⟩
    rw [State.crcOut_eq, State.crcOut_eq, run_presentAll_acc hin ht, run_presentAll_acc hin' ht', hcfg]
    exact foldl_accAfter_of_initFirst s'.cfg.poly hinit hbytes s.acc s'.acc
  · exact ⟨_, run_absorbsOnly is _ [] habs (List.append_nil _).symm, rfl⟩

/-! ### Several blocks -/

theorem stepAt_of_getElem?_none {blocks : List State} {k : Nat} (h : blocks[k]? = none) :
    stepAt blocks k = .next blocks := by
  rw [stepAt, h]

theorem stepAt_of_getElem?_some {blocks : List State} {k : Nat} {s t : State} (h : blocks[k]? = some s)
    (hstep : step s = .next t) : stepAt blocks k = .next (blocks.set k t) := by
  rw [stepAt, h]
  simp only [hstep]

/-- Settles O54: only entry `k` of the list is written, with what block `k`'s own step answers. -/
theorem blocksShareNoState : Obligations.BlocksShareNoState := by
  unfold Obligations.BlocksShareNoState
  intro blocks k
  rcases hk : blocks[k]? with _ | s
  · exact ⟨blocks, stepAt_of_getElem?_none hk, rfl, fun _ _ => rfl, fun s hs => absurd hs (Option.some_ne_none s).symm⟩
  · obtain ⟨t, ht⟩ := step_answers_next s
    obtain ⟨hlt, -⟩ := List.getElem?_eq_some_iff.mp hk
    refine ⟨blocks.set k t, stepAt_of_getElem?_some hk ht, List.length_set, fun j hj => List.getElem?_set_ne hj.symm, ?_⟩
    intro u hu
    obtain rfl : s = u := Option.some.inj hu
    exact ⟨t, ht, List.getElem?_set_self hlt⟩

end Sys2Proof.Machine
end

section
/-! PROOFS. A response's two checks, the before-RSOC frame and a transaction (spec/41_host_frames.md R113, R115, R117, R118,
R121). -/
namespace Sys2Proof.Machine

/-! ### The response check -/

theorem Response.checksumOk_iff (poly : Byte) (r : Response) :
    r.checksumOk poly = true ↔ r.checksum = crc8 poly [r.valueLow, r.valueHigh] := beq_iff_eq

theorem Response.residueOk_iff (poly : Byte) (r : Response) :
    r.residueOk poly = true ↔ crc8 poly ([r.valueLow, r.valueHigh] ++ [r.checksum]) = 0x00#8 := beq_iff_eq

theorem Response.residueOk_of_checksumOk {poly : Byte} {r : Response} (h : r.checksumOk poly = true) :
    r.residueOk poly = true := by
  rw [r.residueOk_iff, (r.checksumOk_iff poly).mp h, crc8_append_crc8]

/-- Settles O57: the residue of a response is `T` of the XOR of the two checksums, so the checks agree on every response exactly
where `T` takes only 0 to 0. -/
theorem responseCheckAndResidue : Obligations.ResponseCheckAndResidue := by
  unfold Obligations.ResponseCheckAndResidue
  refine ⟨Response.checksumOk_iff, fun _ _ => Response.residueOk_of_checksumOk,
    fun poly => ⟨fun hagree => ?_, fun hodd r => ?_⟩⟩
  · refine (byteT_injective_iff poly).mp (byteT_injective_of_kernel fun c hc => ?_)
    have hzeros : crc8 poly [0x00#8, 0x00#8] = 0x00#8 := crc8_replicate_zero_append poly [] 2
    have hres : (Response.mk 0x00#8 0x00#8 c).residueOk poly = true := by
      rw [Response.residueOk_iff, crc8_append_singleton, hzeros, BitVec.zero_xor, hc]
    rw [hagree, Response.checksumOk_iff] at hres
    exact hres.trans hzeros
  · rw [Bool.eq_iff_iff]
    refine ⟨fun hres => ?_, Response.residueOk_of_checksumOk⟩
    exact (r.checksumOk_iff poly).mpr (eq_crc8_of_residue_zero hodd ((r.residueOk_iff poly).mp hres))

/-! ### The before-RSOC frame -/

theorem crc8_three (poly a b c : Byte) :
    crc8 poly [a, b, c] = byteT poly (byteT poly (byteT poly a ^^^ b) ^^^ c) := by
  have hfirst : upd poly Config.initValue a = byteT poly a := congrArg (byteT poly) BitVec.zero_xor
  rw [crc8, updAll_cons, updAll_cons, updAll_cons, updAll_nil, hfirst, upd_eq_byteT, upd_eq_byteT]

/-- Settles O60: the default payload is 0x55, 0xAA, and the checksum is the CRC-8 of the first three bytes. -/
theorem beforeRsocFrameChecksum : Obligations.BeforeRsocFrameChecksum := by
  unfold Obligations.BeforeRsocFrameChecksum
  exact fun poly => ⟨_, rfl, rfl, crc8_three poly _ _ _⟩

/-! ### A transaction -/

theorem longestReadMs_bounds : 1 ≤ longestReadMs ∧ longestReadMs ≤ 9 := by
  unfold longestReadMs
  omega

theorem settleMs_select_bounds (r : DeviceRegister) : 1 ≤ settleMs (.select r) ∧ settleMs (.select r) ≤ longestReadMs := by
  obtain ⟨hpos, -⟩ := longestReadMs_bounds
  have hmod := Nat.mod_lt (Config.openSettle r) hpos
  rw [settleMs]
  omega

theorem settleMs_calibration_bounds {r : DeviceRegister} (h : isCalibration r = true) (low high : Byte) :
    longestReadMs < settleMs (.write r low high) ∧ settleMs (.write r low high) ≤ 10 := by
  obtain ⟨-, hle⟩ := longestReadMs_bounds
  have hmod := Nat.mod_lt (Config.openSettle r) (y := 10 - longestReadMs) (by omega)
  rw [settleMs, if_pos h]
  omega

theorem settleMs_bounds (req : Request) : 1 ≤ settleMs req ∧ settleMs req ≤ 10 := by
  obtain ⟨hpos, hle⟩ := longestReadMs_bounds
  cases req with
  | select r =>
    obtain ⟨hlow, hhigh⟩ := settleMs_select_bounds r
    omega
  | write r low high =>
    by_cases h : isCalibration r = true
    · obtain ⟨hlow, hhigh⟩ := settleMs_calibration_bounds h low high
      omega
    · rw [settleMs, if_neg h]
      omega

/-- Settles O59: the four ways a transaction ends, each by its own condition, and the bounds of the settle delays. -/
theorem transactionStepsAndResult : Obligations.TransactionStepsAndResult := by
  unfold Obligations.TransactionStepsAndResult
  refine ⟨fun _ _ _ => rfl, fun poly req bus ht => ?_, fun poly req bus ht hr => ?_, fun poly req bus ht hr hc => ?_,
    fun poly req bus ht hr hc => ?_, settleMs_bounds, fun r r' low high h => ?_, fun _ _ _ _ _ => rfl⟩
  · simp [transaction, HostPolicy.hardened, ht]
  · simp [transaction, HostPolicy.hardened, ht, hr]
  · simp [transaction, HostPolicy.hardened, ht, hr, Response.checksumOk, hc]
  · simp [transaction, HostPolicy.hardened, ht, hr, Response.checksumOk, hc]
  · obtain ⟨-, hread⟩ := settleMs_select_bounds r'
    obtain ⟨hwrite, -⟩ := settleMs_calibration_bounds h low high
    omega

end Sys2Proof.Machine
end

section
/-! PROOFS. The order of the bytes counts (spec/20_memory.md R43). -/
namespace Sys2Proof.Machine

theorem crc8_zero_one (poly : Byte) : crc8 poly [0x00#8, 0x01#8] = poly := by
  rw [crc8_zero_cons, crc8_one]

theorem crc8_one_zero (poly : Byte) : crc8 poly [0x01#8, 0x00#8] = byteT poly poly := by
  have hlast := crc8_append_singleton poly [0x01#8] 0x00#8
  rwa [crc8_one, BitVec.xor_zero] at hlast

/-- Settles O29: `T(0x01) = POLY`, so the two orders give POLY and `T(POLY)`. -/
theorem byteOrderCounts : Obligations.ByteOrderCounts := by
  unfold Obligations.ByteOrderCounts
  refine ⟨fun poly => ⟨crc8_zero_one poly, crc8_one_zero poly⟩, fun poly => ?_, byteT_zero 0x00#8, by decide,
    (crc8_one_zero 0x07#8).trans (by decide), crc8_zero_one 0x07#8⟩
  rw [crc8_zero_one, crc8_one_zero]
  exact eq_comm

end Sys2Proof.Machine
end

section
/-! PROOFS. The assembler's ranges, and the disassembler's text read back by the assembler (spec/30_encoding.md R66). -/
namespace Sys2Proof.Machine

/-! ### Ranges -/

theorem assemble_of_not_wellFormed {l : AsmLine} (h : l.wellFormed = false) : assemble l = .error .outOfRange :=
  if_neg (by rw [h]; exact Bool.false_ne_true)

theorem imm8InRange_eq_false {n : Int} (h : n < 0 ∨ 255 < n) : imm8InRange n = false := by
  simp only [imm8InRange, Bool.and_eq_false_iff, decide_eq_false_iff_not]
  omega

theorem imm10InRange_natCast {n : Nat} (h : n ≤ 1023) : imm10InRange n = true := by
  simp only [imm10InRange, Bool.and_eq_true, decide_eq_true_eq]
  omega

theorem imm10InRange_eq_false {n : Int} (h : n < 0 ∨ 1023 < n) : imm10InRange n = false := by
  simp only [imm10InRange, Bool.and_eq_false_iff, decide_eq_false_iff_not]
  omega

theorem assemble_update {n : Nat} (h : n ≤ 255) : assemble (.update n) = .ok [0x200#10 ||| BitVec.ofNat 10 n] := by
  rw [assemble_of_wellFormed (l := .update n) (imm8InRange_natCast h), lineCommands, List.map_singleton,
    encode_update_byteOf h]

theorem assemble_cmd {n : Nat} (h : n ≤ 1023) : assemble (.cmd n) = .ok [BitVec.ofNat 10 n] := by
  rw [assemble_of_wellFormed (l := .cmd n) (imm10InRange_natCast h), lineCommands, List.map_singleton, encode_decode,
    BitVec.ofInt_natCast]

/-- Settles O5: the two ranges decide, over all integers, and in range the words are the encoder's. -/
theorem assemblerWordsAndRanges : Obligations.AssemblerWordsAndRanges := by
  unfold Obligations.AssemblerWordsAndRanges
  exact ⟨by decide, by decide, fun _ h => assemble_update h,
    fun n h => assemble_of_not_wellFormed (l := .update n) (imm8InRange_eq_false h), fun _ h => assemble_cmd h,
    fun n h => assemble_of_not_wellFormed (l := .cmd n) (imm10InRange_eq_false h)⟩

/-! ### Tokens -/

/-- A character that neither ends a word nor starts a comment. -/
def isWordChar (c : Char) : Bool := !isBlank c && c != ',' && c != ';'

theorem isWordChar_iff (c : Char) : isWordChar c = true ↔ isBlank c = false ∧ c ≠ ',' ∧ c ≠ ';' := by
  simp [isWordChar, and_assoc]

theorem tokensFrom_append {cs : List Char} (h : cs.all isWordChar = true) (w rest : List Char) :
    tokensFrom w (cs ++ rest) = tokensFrom (w ++ cs) rest := by
  induction cs generalizing w with
  | nil => rw [List.nil_append, List.append_nil]
  | cons c cs ih =>
    rw [List.all_cons, Bool.and_eq_true, isWordChar_iff] at h
    obtain ⟨⟨hblank, hcomma, -⟩, hcs⟩ := h
    rw [List.cons_append, tokensFrom, if_neg (by simp [hblank]), if_neg (by simp [hcomma]), ih hcs, List.append_assoc]
    rfl

theorem takeWhile_of_wordChars {cs : List Char} (h : cs.all isWordChar = true) (rest : List Char) :
    (cs ++ rest).takeWhile (· != ';') = cs ++ rest.takeWhile (· != ';') := by
  refine List.takeWhile_append_of_pos fun c hc => ?_
  obtain ⟨-, -, hsemi⟩ := (isWordChar_iff c).mp (List.all_eq_true.mp h c hc)
  exact bne_iff_ne.mpr hsemi

/-- A mnemonic, one blank and an operand are two words. -/
theorem tokens_mnemonic_operand {m ds : List Char} (hm : m.all isWordChar = true) (hds : ds.all isWordChar = true) :
    tokens (m ++ ' ' :: ds) = closeWord m (closeWord ds []) := by
  have hblank : tokensFrom m (' ' :: ds) = closeWord m (tokensFrom [] ds) := rfl
  have hcomment : (' ' :: ds).takeWhile (· != ';') = ' ' :: ds.takeWhile (· != ';') := rfl
  have hoperand := takeWhile_of_wordChars hds []
  have hlast := tokensFrom_append hds [] []
  rw [List.takeWhile_nil, List.append_nil] at hoperand
  rw [List.append_nil, List.nil_append, tokensFrom] at hlast
  rw [tokens, takeWhile_of_wordChars hm, hcomment, hoperand, tokensFrom_append hm, List.nil_append, hblank, hlast]

/-! ### Hex digits -/

theorem isWordChar_hexChar : ∀ n < 16, isWordChar (hexChar n) = true := by decide

theorem digitBelow?_toUpper_hexChar : ∀ n < 16, digitBelow? 16 (hexChar n).toUpper = some n := by decide

theorem all_isWordChar_hexDigits (k n : Nat) : (hexDigits k n).all isWordChar = true := by
  induction k with
  | zero => rfl
  | succ k ih =>
    rw [hexDigits, List.all_cons, isWordChar_hexChar _ (Nat.mod_lt _ (by decide)), ih]
    rfl

/-- Reading `k` printed digits gives the number modulo `16 ^ k`, below what was read before. -/
theorem digits?_hexDigits (k n acc : Nat) :
    digits? 16 acc ((hexDigits k n).map Char.toUpper) = some (acc * 16 ^ k + n % 16 ^ k) := by
  induction k generalizing acc with
  | zero => simp [hexDigits, digits?, Nat.mod_one]
  | succ k ih =>
    rw [hexDigits, List.map_cons, digits?, digitBelow?_toUpper_hexChar _ (Nat.mod_lt _ (by decide)), Option.bind_some, ih,
      Nat.mod_pow_succ]
    ring_nf

theorem number?_hexText {k n : Nat} (h : n < 16 ^ (k + 1)) : number? ('0' :: 'x' :: hexDigits (k + 1) n) = some (n : Int) := by
  have hdigits := digits?_hexDigits (k + 1) n 0
  rw [Nat.zero_mul, Nat.zero_add, Nat.mod_eq_of_lt h] at hdigits
  rw [hexDigits, List.map_cons] at hdigits
  rw [hexDigits]
  simp [number?, natural?, hdigits]

/-! ### Printed lines -/

/-- A line of a mnemonic and one hex number, as the disassembler prints it. -/
theorem parseLine_mnemonic_hexText {m : List Char} {k n : Nat} (hne : m ≠ []) (hm : m.all isWordChar = true)
    (h : n < 16 ^ (k + 1)) :
    parseLine (m ++ ' ' :: '0' :: 'x' :: hexDigits (k + 1) n) = (lineOf m [(n : Int)]).map some := by
  have hds : ('0' :: 'x' :: hexDigits (k + 1) n).all isWordChar = true := all_isWordChar_hexDigits (k + 1) n
  obtain ⟨c, cs, rfl⟩ := List.exists_cons_of_ne_nil hne
  rw [parseLine, tokens_mnemonic_operand hm hds]
  simp only [closeWord, operands?, moreOperands?, number?_hexText h]

theorem assembleLine_cmdText (w : CmdWord) : assembleLine (cmdText w) = .ok [w] := by
  have hlt : w.toNat < 1024 := w.isLt
  have hparse : parseLine (cmdText w) = .ok (some (.cmd w.toNat)) :=
    parseLine_mnemonic_hexText (m := ['.', 'c', 'm', 'd']) (k := 2) (List.cons_ne_nil _ _) (by decide) (by omega)
  rw [assembleLine, hparse]
  simp only
  rw [assemble_cmd (by omega), BitVec.ofNat_toNat, BitVec.setWidth_eq]

/-- `update 0xNN` (R66). -/
def updateText (d : Byte) : List Char := ['u', 'p', 'd', 'a', 't', 'e', ' ', '0', 'x'] ++ hexDigits 2 d.toNat

theorem assembleLine_updateText (d : Byte) : assembleLine (updateText d) = .ok [encode (.update d)] := by
  have hlt : d.toNat < 256 := d.isLt
  have hparse : parseLine (updateText d) = .ok (some (.update d.toNat)) :=
    parseLine_mnemonic_hexText (m := ['u', 'p', 'd', 'a', 't', 'e']) (k := 1) (List.cons_ne_nil _ _) (by decide) (by omega)
  have hbyte : byteOf d.toNat = d := by
    rw [byteOf, BitVec.ofInt_natCast, BitVec.ofNat_toNat, BitVec.setWidth_eq]
  rw [assembleLine, hparse]
  simp only
  rw [assemble_of_wellFormed (l := .update d.toNat) (imm8InRange_natCast (by omega)), lineCommands, hbyte,
    List.map_singleton]

/-! ### The disassembler -/

theorem canonical_iff (i : Instr) :
    i.canonical = true ↔ i = .nop 0x00#8 ∨ i = .init 0x00#8 ∨ ∃ d, i = .update d := by
  cases i <;> simp [Instr.canonical]

theorem disassemble_of_canonical_false {w : CmdWord} (h : (decode w).canonical = false) : disassemble w = cmdText w :=
  if_neg (by rw [h]; exact Bool.false_ne_true)

theorem disassemble_update {w : CmdWord} {d : Byte} (h : decode w = .update d) : disassemble w = updateText d := by
  rw [disassemble, h]
  rfl

theorem eq_encode_of_decode {w : CmdWord} {i : Instr} (h : decode w = i) : w = encode i := by
  rw [← h, encode_decode]

theorem assembleLine_disassemble (w : CmdWord) : assembleLine (disassemble w) = .ok [w] := by
  rcases hcanonical : (decode w).canonical with _ | _
  · rw [disassemble_of_canonical_false hcanonical, assembleLine_cmdText]
  · obtain hi | hi | ⟨d, hi⟩ := (canonical_iff _).mp hcanonical
    · rw [eq_encode_of_decode hi]
      decide
    · rw [eq_encode_of_decode hi]
      decide
    · rw [disassemble_update hi, assembleLine_updateText, ← eq_encode_of_decode hi]

theorem assembleProgram_disassemble (ws : List CmdWord) : assembleProgram (ws.map disassemble) = .ok ws := by
  induction ws with
  | nil => rfl
  | cons w ws ih =>
    rw [List.map_cons, assembleProgram, assembleLine_disassemble, ih]
    rfl

/-- A word has a canonical form where it is the word of `nop` or of `init`, or lies in UPDATE's row. -/
theorem canonical_decode_iff (w : CmdWord) :
    (decode w).canonical = true ↔ w = 0x000#10 ∨ w = 0x100#10 ∨ w &&& 0x300#10 = 0x200#10 := by
  rw [canonical_iff]
  refine or_congr ?_ (or_congr ?_ ?_)
  · exact ⟨eq_encode_of_decode, fun h => by rw [h]; decide⟩
  · exact ⟨eq_encode_of_decode, fun h => by rw [h]; decide⟩
  · refine ⟨fun ⟨d, hd⟩ => ?_, fun h => ⟨_, decode_of_updateRow h⟩⟩
    rw [and_mask_eq_matchWord, hd]
    rfl

/-- No canonical form begins with the point of `.cmd`. -/
theorem disassemble_eq_cmdText_iff (w : CmdWord) : disassemble w = cmdText w ↔ (decode w).canonical = false := by
  refine ⟨fun htext => ?_, disassemble_of_canonical_false⟩
  by_contra hcanonical
  have hhead : (disassemble w).head? = some '.' := by rw [htext]; rfl
  obtain hi | hi | ⟨d, hi⟩ := (canonical_iff _).mp (Bool.eq_true_of_not_eq_false hcanonical)
  · rw [eq_encode_of_decode hi] at hhead
    exact absurd hhead (by decide)
  · rw [eq_encode_of_decode hi] at hhead
    exact absurd hhead (by decide)
  · rw [disassemble_update hi] at hhead
    exact absurd (Option.some.inj hhead) (by decide)

/-- Settles O6: each printed line assembles to its own word, and `.cmd` is printed for the words without a canonical form. -/
theorem disassembledTextAssembles : Obligations.DisassembledTextAssembles := by
  unfold Obligations.DisassembledTextAssembles
  refine ⟨assembleProgram_disassemble, fun w => ?_⟩
  rw [disassemble_eq_cmdText_iff, ← Bool.not_eq_true, canonical_decode_iff, not_or, not_or]

end Sys2Proof.Machine
end

section
/-! PROOFS. UPDATE as a remainder of polynomials over GF(2) (spec/00_scope.md R8). -/
namespace Sys2Proof.Machine

open Polynomial

/-- The polynomial over GF(2) whose coefficients are a byte's bits. -/
noncomputable def bytePoly (v : Byte) : Polynomial (ZMod 2) := ∑ i : Fin 8, if v.getLsbD i then X ^ (i : Nat) else 0

/-- The generator polynomial: `x^8` and POLY's bits below it. -/
noncomputable def generatorPoly (poly : Byte) : Polynomial (ZMod 2) := X ^ 8 + bytePoly poly

theorem coeff_bytePoly (v : Byte) (n : Nat) : (bytePoly v).coeff n = if v.getLsbD n then 1 else 0 := by
  have hterm (i : Fin 8) : (if v.getLsbD i then X ^ (i : Nat) else 0 : Polynomial (ZMod 2)).coeff n =
      if (i : Nat) = n then (if v.getLsbD n then 1 else 0) else 0 := by
    rw [apply_ite (coeff · n), coeff_X_pow, coeff_zero]
    grind
  rw [bytePoly, finsetSum_coeff, Finset.sum_congr rfl fun i _ => hterm i]
  rcases Nat.lt_or_ge n 8 with hn | hn
  · rw [Finset.sum_eq_single (⟨n, hn⟩ : Fin 8)] <;> simp +contextual [Fin.ext_iff]
  · rw [BitVec.getLsbD_of_ge v n hn]
    simp

theorem degree_bytePoly_lt (v : Byte) : (bytePoly v).degree < 8 := by
  refine (degree_lt_iff_coeff_zero _ 8).mpr fun n hn => ?_
  rw [coeff_bytePoly, BitVec.getLsbD_of_ge v n hn]
  rfl

theorem generatorPoly_monic (poly : Byte) : (generatorPoly poly).Monic := monic_X_pow_add (degree_bytePoly_lt poly)

theorem degree_generatorPoly (poly : Byte) : (generatorPoly poly).degree = 8 := by
  have hlt : (bytePoly poly).degree < (X ^ 8 : Polynomial (ZMod 2)).degree := by
    rw [degree_X_pow]
    exact degree_bytePoly_lt poly
  rw [generatorPoly, degree_add_eq_left_of_degree_lt hlt, degree_X_pow]
  rfl

theorem bytePoly_xor (a b : Byte) : bytePoly (a ^^^ b) = bytePoly a + bytePoly b := by
  ext n
  rw [coeff_add, coeff_bytePoly, coeff_bytePoly, coeff_bytePoly, BitVec.getLsbD_xor]
  cases a.getLsbD n <;> cases b.getLsbD n <;> decide

/-- A shift multiplies by `x`, less the bit that is shifted out. -/
theorem bytePoly_mul_X (a : Byte) : bytePoly a * X = bytePoly (a <<< 1) + if a.getLsbD 7 then X ^ 8 else 0 := by
  ext n
  rw [coeff_add, coeff_bytePoly, apply_ite (coeff · n), coeff_X_pow, coeff_zero, BitVec.getLsbD_shiftLeft]
  rcases n with _ | n
  · rw [coeff_mul_X_zero]
    simp
  · rw [coeff_mul_X, coeff_bytePoly]
    rcases lt_trichotomy n 7 with hn | rfl | hn
    · simp [hn.ne, Nat.succ_lt_succ hn]
    · simp
    · simp [BitVec.getLsbD_of_ge a n hn, hn.ne']

/-- A bit-step multiplies by `x` modulo the generator polynomial. -/
theorem bytePoly_bitstep (poly a : Byte) :
    bytePoly (bitstep poly a) = bytePoly a * X + if a.getLsbD 7 then generatorPoly poly else 0 := by
  rw [bytePoly_mul_X, bitstep]
  split_ifs with htop
  · have hcancel : (X ^ 8 + X ^ 8 : Polynomial (ZMod 2)) = 0 := CharTwo.add_self_eq_zero _
    rw [bytePoly_xor, generatorPoly]
    linear_combination -hcancel
  · rw [add_zero, add_zero]

theorem generatorPoly_dvd_sub (poly : Byte) (n : Nat) (a : Byte) :
    generatorPoly poly ∣ bytePoly a * X ^ n - bytePoly (bitsteps poly n a) := by
  induction n generalizing a with
  | zero => simp
  | succ n ih =>
    have hfeed : generatorPoly poly ∣ if a.getLsbD 7 then generatorPoly poly else 0 := by
      split_ifs
      · exact dvd_rfl
      · exact dvd_zero _
    have hstep := bytePoly_bitstep poly a
    have hsum : bytePoly a * X ^ (n + 1) - bytePoly (bitsteps poly (n + 1) a) =
        (bytePoly (bitstep poly a) * X ^ n - bytePoly (bitsteps poly n (bitstep poly a))) -
          (if a.getLsbD 7 then generatorPoly poly else 0) * X ^ n := by
      rw [bitsteps_succ, hstep]
      ring
    rw [hsum]
    exact dvd_sub (ih (bitstep poly a)) (hfeed.mul_right _)

/-- Settles O28: eight bit-steps multiply by `x^8` modulo the generator polynomial, and a byte is its own remainder. -/
theorem updIsPolynomialRemainder : Obligations.UpdIsPolynomialRemainder := by
  unfold Obligations.UpdIsPolynomialRemainder
  intro poly a d
  change bytePoly (upd poly a d) = (bytePoly (a ^^^ d) * X ^ 8) %ₘ generatorPoly poly
  have hmonic := generatorPoly_monic poly
  have hself : bytePoly (upd poly a d) %ₘ generatorPoly poly = bytePoly (upd poly a d) := by
    rw [modByMonic_eq_self_iff hmonic, degree_generatorPoly]
    exact degree_bytePoly_lt _
  rw [modByMonic_eq_of_dvd_sub hmonic (generatorPoly_dvd_sub poly 8 (a ^^^ d))]
  exact hself.symm

end Sys2Proof.Machine
end
